-- ==== Sys2Proof/Word.lean ====
section
/-! DEFINITION. The two widths EPDC stores (R11): the 32-bit unsigned operand word and the byte.
Every formula of a rule is evaluated in the naturals, so a word is read with `toNat` before any
arithmetic is done on it. -/

namespace Sys2Proof

/-- A 32-bit operand or register word, the `u32` of R11 and R21. -/
abbrev Word := BitVec 32

/-- The byte of R60, the only addressable unit. -/
abbrev Byte := BitVec 8

/-- `ceil(a / b) = (a + b - 1) / b` in the naturals (R11). -/
def ceilDiv (a b : Nat) : Nat := (a + b - 1) / b

end Sys2Proof
end

