-- ==== Sys2Proof/Syntax.lean ====
section
/-! DEFINITION. The thirteen operations (R85, spec/opcode_table.json) with their operand words, and
the seven-word descriptor that encodes one (R80). -/

namespace Sys2Proof

/-- One operation descriptor: the words OPW0 to OPW6 (R80). -/
structure Descriptor where
  w0 : Word
  w1 : Word
  w2 : Word
  w3 : Word
  w4 : Word
  w5 : Word
  w6 : Word
deriving DecidableEq, Repr

/-- The operations of R85, one constructor per row of the opcode table.
Operands are whole 32-bit words in descriptor order (R81, R82).
An enumeration operand stays a word, because its range is checked after the state (R84, R220). -/
inductive Instr where
  /-- `fb.new width, height, base, len` (R110). -/
  | fbNew (width height base len : Word)
  /-- `fb.rot r` (R111). -/
  | fbRot (r : Word)
  /-- `fb.clear color` (R112). -/
  | fbClear (color : Word)
  /-- `fb.pix x, y, color` (R113). -/
  | fbPix (x y color : Word)
  /-- `fb.get x, y` (R114). -/
  | fbGet (x y : Word)
  /-- `fb.bytes` (R115). -/
  | fbBytes
  /-- `dc.init` (R170). -/
  | dcInit
  /-- `dc.lut sel` (R171). -/
  | dcLut (sel : Word)
  /-- `dc.clrf` (R172). -/
  | dcClrf
  /-- `dc.update addr, len` (R173). -/
  | dcUpdate (addr len : Word)
  /-- `dc.partial addr, len, x, y, w, h` (R174). -/
  | dcPartial (addr len x y w h : Word)
  /-- `dc.display` (R175). -/
  | dcDisplay
  /-- `dc.sleep` (R176). -/
  | dcSleep
deriving DecidableEq, Repr

end Sys2Proof
end

