-- ==== Sys2Proof/WellFormed.lean ====
section
/-! DEFINITION. Which instructions have legal operands as far as the descriptor alone shows: the
enumeration operands within their encodings (R82, R86 case 3) and the width of `fb.new` a multiple
of eight (R86 case 5). The legality of a slice (R86 case 4) depends on MEM_BYTES and is checked by
the machine. An ill-formed descriptor still decodes and runs: it ends with a result code (R220). -/

namespace Sys2Proof

/-- An enumeration operand is legal when the whole word is one of the `n` encodings `0 .. n - 1` (R82). -/
def enumLegal (n : Nat) (v : Word) : Bool := v.toNat < n

/-- The descriptor-level legality of R86 cases 3 and 5. -/
def Instr.wellFormed : Instr → Bool
  | .fbNew width _ _ _ => width.toNat % 8 == 0
  | .fbRot r => enumLegal 4 r
  | .fbClear color => enumLegal 2 color
  | .fbPix _ _ color => enumLegal 2 color
  | .fbGet _ _ => true
  | .fbBytes => true
  | .dcInit => true
  | .dcLut sel => enumLegal 3 sel
  | .dcClrf => true
  | .dcUpdate _ _ => true
  | .dcPartial _ _ _ _ _ _ => true
  | .dcDisplay => true
  | .dcSleep => true

end Sys2Proof
end

