-- ==== Sys2Proof/Decode.lean ====
section
/-! DEFINITION. The decoder of R84 over the opcode map of R85, total on every seven-word value, and
the encoder of the assembler (R88), which writes 0 into the reserved bits and the unused words. -/

namespace Sys2Proof

/-- Why a descriptor is undecodable: the two `illegal` exits of R84. -/
inductive DecodeReject where
  /-- `OPW0[31:8]` is not 0 (R86 case 1). -/
  | reservedBits
  /-- The opcode is not in the map of R85 (R86 case 2). -/
  | unknownOpcode
deriving DecidableEq, Repr

/-- The reserved field `rsv`, `OPW0[31:8]` (R80). -/
def Descriptor.rsv (d : Descriptor) : BitVec 24 := d.w0.extractLsb' 8 24

/-- The opcode field `opc`, `OPW0[7:0]` (R80). -/
def Descriptor.opc (d : Descriptor) : Byte := d.w0.extractLsb' 0 8

/-- The opcode map of R85 and the operand formats of R81. -/
def decodeOpcode (opc : Byte) (d : Descriptor) : Option Instr :=
  match opc.toNat with
  | 0x10 => some (.fbNew d.w1 d.w2 d.w3 d.w4)
  | 0x11 => some (.fbRot d.w1)
  | 0x12 => some (.fbClear d.w1)
  | 0x13 => some (.fbPix d.w1 d.w2 d.w3)
  | 0x14 => some (.fbGet d.w1 d.w2)
  | 0x15 => some .fbBytes
  | 0x20 => some .dcInit
  | 0x21 => some (.dcLut d.w1)
  | 0x22 => some .dcClrf
  | 0x23 => some (.dcUpdate d.w1 d.w2)
  | 0x24 => some (.dcPartial d.w1 d.w2 d.w3 d.w4 d.w5 d.w6)
  | 0x25 => some .dcDisplay
  | 0x26 => some .dcSleep
  | _ => none

/-- `Decode(OPW0..OPW6)` of R84: the reserved bits first, then the opcode map. -/
def decode (d : Descriptor) : Except DecodeReject Instr :=
  if d.rsv ≠ 0 then .error .reservedBits
  else match decodeOpcode d.opc d with
    | some i => .ok i
    | none => .error .unknownOpcode

/-- The opcode of an instruction (R85). -/
def Instr.opcode : Instr → Byte
  | .fbNew _ _ _ _ => 0x10
  | .fbRot _ => 0x11
  | .fbClear _ => 0x12
  | .fbPix _ _ _ => 0x13
  | .fbGet _ _ => 0x14
  | .fbBytes => 0x15
  | .dcInit => 0x20
  | .dcLut _ => 0x21
  | .dcClrf => 0x22
  | .dcUpdate _ _ => 0x23
  | .dcPartial _ _ _ _ _ _ => 0x24
  | .dcDisplay => 0x25
  | .dcSleep => 0x26

/-- The operand words in the order of R81; their number is the `k` of R80. -/
def Instr.operands : Instr → List Word
  | .fbNew width height base len => [width, height, base, len]
  | .fbRot r => [r]
  | .fbClear color => [color]
  | .fbPix x y color => [x, y, color]
  | .fbGet x y => [x, y]
  | .fbBytes => []
  | .dcInit => []
  | .dcLut sel => [sel]
  | .dcClrf => []
  | .dcUpdate addr len => [addr, len]
  | .dcPartial addr len x y w h => [addr, len, x, y, w, h]
  | .dcDisplay => []
  | .dcSleep => []

/-- The six operand words OPW1 to OPW6 of a descriptor. -/
def Descriptor.operandWords (d : Descriptor) : List Word := [d.w1, d.w2, d.w3, d.w4, d.w5, d.w6]

/-- The assembler of R88: opcode in OPW0, operands from OPW1 on, 0 in every unused word. -/
def encode (i : Instr) : Descriptor :=
  let a := i.operands
  { w0 := i.opcode.setWidth 32
    w1 := a.getD 0 0
    w2 := a.getD 1 0
    w3 := a.getD 2 0
    w4 := a.getD 3 0
    w5 := a.getD 4 0
    w6 := a.getD 5 0 }

/-- The descriptor whose bits are the low `nbits` bits of `w`, every bit above them 0: bit 0 is bit 0
of OPW0, bit 32 is bit 0 of OPW1, and so on (DEDUCED, log entry 17). -/
def Descriptor.ofBits (nbits w : Nat) : Descriptor :=
  let v := w % 2 ^ nbits
  { w0 := BitVec.ofNat 32 v
    w1 := BitVec.ofNat 32 (v / 2 ^ 32)
    w2 := BitVec.ofNat 32 (v / 2 ^ 64)
    w3 := BitVec.ofNat 32 (v / 2 ^ 96)
    w4 := BitVec.ofNat 32 (v / 2 ^ 128)
    w5 := BitVec.ofNat 32 (v / 2 ^ 160)
    w6 := BitVec.ofNat 32 (v / 2 ^ 192) }

/-- The instruction the decoder reads from a word numbered as the opcode table numbers it. -/
def decodeTableWord (nbits w : Nat) : Option Instr :=
  match decode (Descriptor.ofBits nbits w) with
  | .ok i => some i
  | .error _ => none

end Sys2Proof
end

