-- ==== Sys2Proof/Config.lean ====
section
/-! DEFINITION. The parameter record `P` of R6 to R8 as plain data, the constraints the spec puts on
it, the implementation's own choice of it, and the free values the spec leaves to the environment.
A constant declared `opaque` has no body here: nothing can evaluate it or prove a value of it. -/

namespace Sys2Proof

/-- The level of a line (R13: Low 0, High 1). -/
inductive Level where
  | low
  | high
deriving DecidableEq, Repr, Inhabited

/-- `not(Low) = High`, `not(High) = Low` (R13). -/
def Level.not : Level → Level
  | .low => .high
  | .high => .low

/-- The waveform selector (R13: None 0, Full 1, Quick 2). -/
inductive LutSel where
  /-- The default table (`None`). -/
  | none
  | full
  | quick
deriving DecidableEq, Repr

/-- A transfer `Xfer`: one command byte and a data list that may be empty (R8). -/
structure Xfer where
  cmd  : Byte
  data : List Byte
deriving DecidableEq, Repr

/-- The four raw numbers of a window, the arguments of `PV.window_seq` (R8, R174). -/
structure Window where
  x : Nat
  y : Nat
  w : Nat
  h : Nat
deriving DecidableEq, Repr

/-- The panel variant record `PV` (R8).
`PV.lut_table` is held as its three values and `PV.window_seq` as a table of its values (log entry 3). -/
structure PanelVariant where
  initSeq     : List Xfer
  lutCmd      : Byte
  lutDefault  : List Byte
  lutFull     : List Byte
  lutQuick    : List Byte
  writeOldCmd : Byte
  writeNewCmd : Byte
  windowTable : List (Window × List Xfer)
  refreshSeq  : List Xfer
  sleepSeq    : List Xfer
  clearByte   : Byte
deriving DecidableEq, Repr

/-- The parameter record `P` (R6, R7, R8). -/
structure Params where
  memBytes       : Nat
  devWidth       : Nat
  devHeight      : Nat
  granX          : Nat
  granY          : Nat
  busyActive     : Level
  dcCmdLevel     : Level
  csActive       : Level
  rstLowMs       : Word
  rstHighMs      : Word
  pollIntervalMs : Word
  busyMaxPolls   : Nat
  pv             : PanelVariant
deriving DecidableEq, Repr

/-- The constraints of R6, R7 and R8 on the parameters (log entry 16). -/
abbrev Params.Valid (p : Params) : Prop :=
  (1 ≤ p.memBytes ∧ p.memBytes ≤ 2 ^ 32) ∧
  (p.devWidth % 8 = 0 ∧ 8 ≤ p.devWidth ∧ p.devWidth < 2 ^ 32) ∧
  (1 ≤ p.devHeight ∧ p.devHeight < 2 ^ 32) ∧
  (p.granX % 8 = 0 ∧ 8 ≤ p.granX) ∧
  1 ≤ p.granY ∧
  1 ≤ p.busyMaxPolls ∧
  p.pv.refreshSeq ≠ [] ∧
  p.pv.sleepSeq ≠ []

/-- A record that meets the constraints.
It shows that they can be met, which is all it is used for; no implementation is said to have it. -/
def Params.witness : Params where
  memBytes := 1
  devWidth := 8
  devHeight := 1
  granX := 8
  granY := 1
  busyActive := .low
  dcCmdLevel := .low
  csActive := .low
  rstLowMs := 0
  rstHighMs := 0
  pollIntervalMs := 0
  busyMaxPolls := 1
  pv :=
    { initSeq := []
      lutCmd := 0
      lutDefault := []
      lutFull := []
      lutQuick := []
      writeOldCmd := 0
      writeNewCmd := 0
      windowTable := []
      refreshSeq := [⟨0, []⟩]
      sleepSeq := [⟨0, []⟩]
      clearByte := 0 }

/-- Parameters together with the proof that they meet R6 to R8.
The two defaults only show that the type is inhabited, which `opaque` below needs. -/
structure Implementation where
  params : Params := Params.witness
  valid  : params.Valid := by decide
deriving Inhabited

/-- What the implementation at hand fixes: some parameters that meet R6 to R8, and nothing else is
known of them (DESIGN CHOICE, log entry 2). -/
opaque Config.implementation : Implementation

/-- The environment's answer to the `n`-th bus write since power-on, where the state lists none
(R9, R12 `env.bus()`; a free value, log entry 4). -/
opaque Config.freeBus : Nat → Bool

/-- The level of the busy input at its `n`-th sample since power-on, where the state lists none
(R9, R34, R12 `env.busy()`; a free value, log entry 4). -/
opaque Config.freeBusy : Nat → Level

/-- The unspecified value of OPW`i` after the `n`-th block reset the host triggers (R21, R230; a free
value, log entry 5). -/
opaque Config.freeOpw : Nat → Nat → Word

/-- `PV.window_seq` where the parameter record's table lists no value: an arbitrary total function
(R8; a free value, log entry 3). -/
opaque Config.freeWindowSeq : Window → List Xfer

end Sys2Proof
end

