-- ==== Sys2Proof/Machine/State.lean ====
section
/-! DEFINITION. The state of EPDC (R20): host port, framebuffer unit, controller unit, output latches
and frame memory; beside them, as the model's own fields, the parameter record `P`, the event
history `H`, the host's pending moves and the environment's pending answers, none of which the spec
counts as state (R20) and all of which a deterministic step must find somewhere. -/

namespace Sys2Proof.Machine

/-- `Rotation` (R13: Rotate0 0, Rotate90 1, Rotate180 2, Rotate270 3). -/
inductive Rotation where
  | rotate0
  | rotate90
  | rotate180
  | rotate270
deriving DecidableEq, Repr

/-- `DcState` (R13, R28: Uninit 0 to Faulted 6); a code that is never held has no constructor (DEDUCED,
log entry 14). -/
inductive DcState where
  | uninit
  | initializing
  | idle
  | updating
  | displaying
  | sleeping
  | faulted
deriving DecidableEq, Repr

/-- The result codes of R200. -/
inductive ResultCode where
  | ok
  | initBusFault
  | initTimeout
  | cmdBusFault
  | sizeMismatch
  | invalidWindow
  | deviceFaulted
  | timeout
  | invalidState
  | illegalOperation
  | noResult
deriving DecidableEq, Repr

/-- The three output lines (R10, R33). -/
inductive Line where
  | cs
  | dc
  | rst
deriving DecidableEq, Repr

/-- The events of the history `H` (R10). -/
inductive Event where
  /-- `Pin(line, level)`. -/
  | pin (line : Line) (level : Level)
  /-- `Bus(bytes, ok)`. -/
  | bus (bytes : List Byte) (ok : Bool)
  /-- `Delay(ms)`. -/
  | delay (ms : Word)
  /-- `Busy(level)`. -/
  | busy (level : Level)
  /-- `Reset`: block reset was applied (R230). -/
  | reset
deriving DecidableEq, Repr

/-- What the host may do between operations (R9, R240), as data in the state (DESIGN CHOICE, log
entry 7). Reading needs no move: it changes nothing (R61, R38). -/
inductive HostMove where
  /-- Write operand register OPW`i` (R21). -/
  | writeOpw (i : Fin 7) (v : Word)
  /-- Store one byte of frame memory (R240, `host M[a] <- v` of R88). -/
  | store (addr : Nat) (v : Byte)
  /-- The GO strobe: start the operation that OPW0 to OPW6 describe (R25). -/
  | go
  /-- Assert block reset (R230, R232). -/
  | reset
deriving DecidableEq, Repr

/-- The framebuffer unit's registers SR0 to SR5 (R26). -/
structure FbRegs where
  valid  : Bool
  width  : Word
  height : Word
  rot    : Rotation
  base   : Word
  len    : Word
deriving DecidableEq, Repr

/-- The controller unit's registers SR6 to SR9 (R28, R30, R31, R32). -/
structure DcRegs where
  state       : DcState
  activeLut   : LutSel
  frameLoaded : Bool
  baseline    : Bool
deriving DecidableEq, Repr

/-- The output latches, SR10 (R33). -/
structure Lines where
  cs  : Level
  dc  : Level
  rst : Level
deriving DecidableEq, Repr

/-- The environment as the model holds it (R9): answers already fixed, oldest first, and how many of
each kind have been given, which numbers the free answers after those. `resets` counts the block
resets the host has triggered. The model's own, no state of the hardware. -/
structure Env where
  busAnswers  : List Bool
  busyAnswers : List Level
  busDraws    : Nat
  busyDraws   : Nat
  resets      : Nat
deriving DecidableEq, Repr

/-- The contents of frame memory: address and byte, in the canonical form `Memory.wf`. -/
abbrev Memory := List Host.Cell

/-- Everything the spec gives the machine (R20), and the model's own fields `cfg`, `history`, `host`
and `env`. -/
structure State where
  /-- The parameter record `P` (R6 to R8); no step changes it. -/
  cfg     : Params
  /-- OPW0 to OPW6 (R21). -/
  opw     : Descriptor
  /-- RESULT (R22). -/
  result  : ResultCode
  /-- RET0 (R23). -/
  ret0    : Word
  /-- RET1 (R23). -/
  ret1    : Word
  /-- The framebuffer unit (R26). -/
  fb      : FbRegs
  /-- The controller unit (R28 to R32). -/
  dcu     : DcRegs
  /-- The output latches (R33). -/
  lines   : Lines
  /-- Frame memory `M` (R35, R60). -/
  mem     : Memory
  /-- The event history `H`, oldest first (R10; the model's own field, log entry 11). -/
  history : List Event
  /-- The host's pending moves, the next one first (R9, R240). -/
  host    : List HostMove
  /-- The environment's answers (R9). -/
  env     : Env
deriving DecidableEq, Repr

/-- Why the machine stops. -/
inductive Fault where
  /-- An access to an address at or above MEM_BYTES, which R60 says does not exist.
  Raised by every load and store of frame memory, the host's store included.
  Safe: R63 says EPDC makes no such access, and none happens in a state that meets the invariant
  (DEDUCED, log entry 9). -/
  | noSuchAddress
deriving DecidableEq, Repr

/-- Why the model gives an instruction no meaning. -/
inductive Refusal where
  /-- An instruction whose arm of `exec` holds no meaning yet.
  Raised by such an arm only, and no arm is one.
  Safe: nothing can be proved of what the instruction would do. -/
  | notModelled (mnemonic : String)
deriving DecidableEq, Repr

/-- The machine at power-on (R39, R230): `H` holds the one `Reset` event, memory lists nothing.
OPW0 to OPW6 have no reset value in the spec and hold 0 here (DESIGN CHOICE, log entry 1).
The host has no move pending and the environment no fixed answer. -/
def State.reset : State where
  cfg     := Config.implementation.params
  opw     := ⟨0, 0, 0, 0, 0, 0, 0⟩
  result  := .noResult
  ret0    := 0
  ret1    := 0
  fb      := ⟨false, 0, 0, .rotate0, 0, 0⟩
  dcu     := ⟨.uninit, .none, false, false⟩
  lines   := ⟨Config.implementation.params.csActive.not,
              Config.implementation.params.dcCmdLevel.not, .high⟩
  mem     := []
  history := [.reset]
  host    := []
  env     := ⟨[], [], 0, 0, 0⟩

end Sys2Proof.Machine
end

