-- ==== Sys2Proof/Machine/Ops.lean ====
section
/-! DEFINITION. The named operations over registers, frame memory and the history: reading and writing
a byte of memory (R61), the derived parameters (R6), one setter per register group, `done` and `raise`
(R12), and block reset (R230), the only way out of the faulted state (R223). -/

namespace Sys2Proof.Machine

/-! ### Frame memory -/

/-- What a byte of memory that nothing has written reads as.
The spec leaves every byte of `M` unspecified at power-on (R231); this is the stand-in of
spec/95_test_vectors.md section 1 (DESIGN CHOICE, log entry 6). -/
def Memory.unlisted : Byte := 0xAA

/-- The byte a memory holds at an address (R61 `MemRead`). -/
def Memory.read : Memory → Nat → Byte
  | [], _ => Memory.unlisted
  | (k, b) :: m, a => if a < k then Memory.unlisted else if a = k then b else Memory.read m a

/-- The memory with the byte at one address replaced (R61 `MemWrite`), in canonical form. -/
def Memory.write : Memory → Nat → Byte → Memory
  | [], a, v => if v = Memory.unlisted then [] else [(a, v)]
  | (k, b) :: m, a, v =>
    if a < k then (if v = Memory.unlisted then (k, b) :: m else (a, v) :: (k, b) :: m)
    else if a = k then (if v = Memory.unlisted then m else (a, v) :: m)
    else (k, b) :: Memory.write m a v

/-- Every listed address is at least `lo`, addresses rise strictly, and no entry equals what an
unlisted address reads as. -/
def Memory.wfFrom : Nat → Memory → Bool
  | _, [] => true
  | lo, (k, b) :: m => decide (lo ≤ k) && decide (b ≠ Memory.unlisted) && Memory.wfFrom (k + 1) m

/-- The canonical form of a memory. -/
def Memory.wf (m : Memory) : Bool := Memory.wfFrom 0 m

/-- Every listed address is below `n`. -/
def Memory.below (n : Nat) (m : Memory) : Bool := m.all fun c => decide (c.1 < n)

/-- `MemRead(a, 1)` (R61); none where the address does not exist (R60). -/
def State.load (s : State) (a : Nat) : Option Byte :=
  if a < s.cfg.memBytes then some (Memory.read s.mem a) else none

/-- The memory of a state replaced. -/
def State.setMem (s : State) (m : Memory) : State := { s with mem := m }

/-- `MemWrite(a, 1, v)` (R61); none where the address does not exist (R60). -/
def State.store (s : State) (a : Nat) (v : Byte) : Option State :=
  if a < s.cfg.memBytes then some (s.setMem (Memory.write s.mem a v)) else none

/-- The list `M[a ..+ n]` (R12), read in increasing address order (R68). -/
def State.readSlice (s : State) : Nat → Nat → Option (List Byte)
  | _, 0 => some []
  | a, n + 1 =>
    match s.load a, State.readSlice s (a + 1) n with
    | some b, some bs => some (b :: bs)
    | _, _ => none

/-- `n` byte stores of `v` from address `a` on (the loop of R112). -/
def State.fill (v : Byte) : Nat → Nat → State → Option State
  | _, 0, s => some s
  | a, n + 1, s =>
    match s.store a v with
    | some s' => State.fill v (a + 1) n s'
    | none => none

/-- An operation that goes on with the result of an access, and stops where the address does not
exist. -/
def onAccess {α : Type} (r : Option α) (k : α → Host.Outcome State Fault Refusal) :
    Host.Outcome State Fault Refusal :=
  match r with
  | some x => k x
  | none => .fault .noSuchAddress

/-! ### Derived parameters and the panel variant -/

/-- `DEV_STRIDE = DEV_WIDTH / 8` (R6). -/
def devStride (p : Params) : Nat := p.devWidth / 8

/-- `FRAME_BYTES = DEV_STRIDE * DEV_HEIGHT` (R6). -/
def frameBytes (p : Params) : Nat := devStride p * p.devHeight

/-- `PV.lut_table` (R8). -/
def lutTable (pv : PanelVariant) : LutSel → List Byte
  | .none => pv.lutDefault
  | .full => pv.lutFull
  | .quick => pv.lutQuick

/-- `PV.window_seq` (R8): the value the record lists for the window, and an arbitrary one where it
lists none (log entry 3). -/
def windowSeq (pv : PanelVariant) (win : Window) : List Xfer :=
  match pv.windowTable.find? (fun e => decide (e.1 = win)) with
  | some e => e.2
  | none => Config.freeWindowSeq win

/-! ### Registers and the history -/

/-- `RESULT <- c` (R12). -/
def State.setResult (s : State) (c : ResultCode) : State := { s with result := c }

/-- `RET0 <- v` (R12). -/
def State.setRet0 (s : State) (v : Word) : State := { s with ret0 := v }

/-- `RET1 <- v` (R12). -/
def State.setRet1 (s : State) (v : Word) : State := { s with ret1 := v }

/-- A write of the framebuffer unit's registers. -/
def State.setFb (s : State) (fb : FbRegs) : State := { s with fb := fb }

/-- A write of the controller unit's registers. -/
def State.setDcu (s : State) (d : DcRegs) : State := { s with dcu := d }

/-- `dc_state <- x` (R28). -/
def State.setDcState (s : State) (x : DcState) : State := s.setDcu { s.dcu with state := x }

/-- A write of the output latches. -/
def State.setLines (s : State) (l : Lines) : State := { s with lines := l }

/-- A write of the operand registers. -/
def State.setOpw (s : State) (d : Descriptor) : State := { s with opw := d }

/-- `emit e`: append an event to the history `H` (R12). -/
def State.emit (s : State) (e : Event) : State := { s with history := s.history ++ [e] }

/-- The environment after an answer was taken. -/
def State.setEnv (s : State) (v : Env) : State := { s with env := v }

/-- The host's pending moves. -/
def State.setHost (s : State) (h : List HostMove) : State := { s with host := h }

/-- `latch(line) <- level` (R141). -/
def Lines.set (l : Lines) (line : Line) (level : Level) : Lines :=
  match line with
  | .cs => { l with cs := level }
  | .dc => { l with dc := level }
  | .rst => { l with rst := level }

/-- `reg[i] <- v` of the operand registers (R21). -/
def setOperandWord (d : Descriptor) (i : Fin 7) (v : Word) : Descriptor :=
  match i.val with
  | 0 => { d with w0 := v }
  | 1 => { d with w1 := v }
  | 2 => { d with w2 := v }
  | 3 => { d with w3 := v }
  | 4 => { d with w4 := v }
  | 5 => { d with w5 := v }
  | _ => { d with w6 := v }

/-- `OPW[i]` (R12). -/
def operandWord (d : Descriptor) (i : Fin 7) : Word :=
  match i.val with
  | 0 => d.w0
  | 1 => d.w1
  | 2 => d.w2
  | 3 => d.w3
  | 4 => d.w4
  | 5 => d.w5
  | _ => d.w6

/-! ### Ending an operation -/

/-- The codes of class `device failure` (R200), after which the controller is faulted (R221). -/
def isDeviceFailure : ResultCode → Bool
  | .initBusFault => true
  | .initTimeout => true
  | .cmdBusFault => true
  | .timeout => true
  | .ok => false
  | .sizeMismatch => false
  | .invalidWindow => false
  | .deviceFaulted => false
  | .invalidState => false
  | .illegalOperation => false
  | .noResult => false

/-- `done`: end the operation with `RESULT <- Ok` (R12). -/
def done (s : State) : State := s.setResult .ok

/-- `raise E` (R12): end the operation with `RESULT <- code(E)` and the state effects of R221 and
R222. EPDC saves no context and runs no handler (spec/60_exceptions.md): a device failure sets
`dc_state <- Faulted`, and a caller error or refusal changes nothing more. -/
def raise (c : ResultCode) (s : State) : State :=
  if isDeviceFailure c then (s.setResult c).setDcState .faulted else s.setResult c

/-- The unspecified operand registers after the `n`-th host-triggered block reset (R230; free values,
log entry 5). -/
def unspecifiedOpw (n : Nat) : Descriptor where
  w0 := Config.freeOpw n 0
  w1 := Config.freeOpw n 1
  w2 := Config.freeOpw n 2
  w3 := Config.freeOpw n 3
  w4 := Config.freeOpw n 4
  w5 := Config.freeOpw n 5
  w6 := Config.freeOpw n 6

/-- Block reset (R230, R231): every register at its value of R39, one `Reset` event and no `Pin`
event, `M` unchanged. There is no return from a device failure other than this (R223). -/
def blockReset (s : State) : State where
  cfg     := s.cfg
  opw     := unspecifiedOpw s.env.resets
  result  := .noResult
  ret0    := 0
  ret1    := 0
  fb      := ⟨false, 0, 0, .rotate0, 0, 0⟩
  dcu     := ⟨.uninit, .none, false, false⟩
  lines   := ⟨s.cfg.csActive.not, s.cfg.dcCmdLevel.not, .high⟩
  mem     := s.mem
  history := s.history ++ [.reset]
  host    := s.host
  env     := { s.env with resets := s.env.resets + 1 }

end Sys2Proof.Machine
end

