-- ==== Sys2Proof/Machine/Operands.lean ====
section
/-! DEFINITION. Reading operands: the enumerations and their encodings (R13, R82), the legality of a
slice (R62), the window check (R178), the coordinate transform and the bit locator (R116, R117), and
the extraction of a window (R179). -/

namespace Sys2Proof.Machine

/-- `Color` (R13: Black 0, White 1). -/
inductive Color where
  | black
  | white
deriving DecidableEq, Repr

/-! ### Enumeration operands: legal only when the whole word is one of the encodings (R82) -/

/-- A `Color` operand. -/
def colorOfWord (v : Word) : Option Color :=
  match v.toNat with
  | 0 => some .black
  | 1 => some .white
  | _ => none

/-- A `Rotation` operand. -/
def rotationOfWord (v : Word) : Option Rotation :=
  match v.toNat with
  | 0 => some .rotate0
  | 1 => some .rotate90
  | 2 => some .rotate180
  | 3 => some .rotate270
  | _ => none

/-- A `LutSel` operand. -/
def lutSelOfWord (v : Word) : Option LutSel :=
  match v.toNat with
  | 0 => some .none
  | 1 => some .full
  | 2 => some .quick
  | _ => none

/-! ### The encodings of R13 and R200, as the host reads them -/

/-- The encoding of a level. -/
def levelCode : Level → Nat
  | .low => 0
  | .high => 1

/-- The encoding of a colour. -/
def colorCode : Color → Nat
  | .black => 0
  | .white => 1

/-- The encoding of a rotation, the two bits of SR3. -/
def rotationCode : Rotation → Nat
  | .rotate0 => 0
  | .rotate90 => 1
  | .rotate180 => 2
  | .rotate270 => 3

/-- The encoding of a waveform selector, the two bits of SR7; 3 is never held (R30). -/
def lutSelCode : LutSel → Nat
  | .none => 0
  | .full => 1
  | .quick => 2

/-- The encoding of a controller state, the three bits of SR6; 7 is never held (R28). -/
def dcStateCode : DcState → Nat
  | .uninit => 0
  | .initializing => 1
  | .idle => 2
  | .updating => 3
  | .displaying => 4
  | .sleeping => 5
  | .faulted => 6

/-- The four bits of RESULT (R200); `0xA` to `0xE` are never produced. -/
def resultCodeBits : ResultCode → BitVec 4
  | .ok => 0x0
  | .initBusFault => 0x1
  | .initTimeout => 0x2
  | .cmdBusFault => 0x3
  | .sizeMismatch => 0x4
  | .invalidWindow => 0x5
  | .deviceFaulted => 0x6
  | .timeout => 0x7
  | .invalidState => 0x8
  | .illegalOperation => 0x9
  | .noResult => 0xF

/-! ### Slices and windows -/

/-- A slice `(a, n)` is legal iff `a + n ≤ MEM_BYTES`, in the naturals (R62). -/
def sliceLegal (p : Params) (a n : Word) : Bool := decide (a.toNat + n.toNat ≤ p.memBytes)

/-- `WindowValid(x, y, w, h)` (R178). -/
def windowValid (p : Params) (win : Window) : Bool :=
  decide (1 ≤ win.w) && decide (1 ≤ win.h) &&
  decide (win.x < p.devWidth) && decide (win.y < p.devHeight) &&
  decide (win.x + win.w ≤ p.devWidth) && decide (win.y + win.h ≤ p.devHeight) &&
  decide (win.w % p.granX = 0) && decide (win.h % p.granY = 0)

/-- The rows of `Extract` from row `r` on: `n` rows, each `w / 8` bytes from byte column `x / 8`
(R179). -/
def extractRows (s : State) (addr x w : Nat) : Nat → Nat → Option (List Byte)
  | _, 0 => some []
  | r, n + 1 =>
    match s.readSlice (addr + r * devStride s.cfg + x / 8) (w / 8),
        extractRows s addr x w (r + 1) n with
    | some row, some rows => some (row ++ rows)
    | _, _ => none

/-- `Extract(addr, x, y, w, h)` (R179), row-major from row `y`. -/
def extract (s : State) (addr : Nat) (win : Window) : Option (List Byte) :=
  extractRows s addr win.x win.w win.y win.h

/-! ### Pixels -/

/-- `Rot(r, x, y, W, Ht)` (R116): the source's table, reproduced exactly. -/
def rotated (r : Rotation) (x y W Ht : Nat) : Nat × Nat :=
  match r with
  | .rotate0 => (x, y)
  | .rotate90 => (Ht - 1 - y, x)
  | .rotate180 => (W - 1 - x, Ht - 1 - y)
  | .rotate270 => (y, W - 1 - x)

/-- `byte_index = y' * (W / 8) + x' / 8` (R67). -/
def byteIndex (W x y : Nat) : Nat := y * (W / 8) + x / 8

/-- The mask of a pixel in its byte: `0x80 >> (x' mod 8)`, most significant bit leftmost (R65). -/
def pixelMask (x : Nat) : Byte := 0x80#8 >>> (x % 8)

/-- `Locate(x, y)` (R117): none outside the logical range and outside the internal range, else the
address and mask of the pixel's bit. -/
def locate (fb : FbRegs) (x y : Nat) : Option (Nat × Byte) :=
  let W := fb.width.toNat
  let Ht := fb.height.toNat
  if W ≤ x ∨ Ht ≤ y then none
  else
    let p := rotated fb.rot x y W Ht
    if W ≤ p.1 ∨ Ht ≤ p.2 then none
    else some (fb.base.toNat + byteIndex W p.1 p.2, pixelMask p.1)

/-- The fill byte of a colour: white `0xFF`, black `0x00` (R66). -/
def colorByte : Color → Byte
  | .white => 0xFF
  | .black => 0x00

/-- A byte with the bits of a mask set to a colour (R113). -/
def paint (c : Color) (b mask : Byte) : Byte :=
  match c with
  | .white => b ||| mask
  | .black => b &&& ~~~mask

/-- `RET0` of an out-of-range read, `NoPixel` (R114). -/
def noPixel : Word := 0xFFFFFFFF

/-- `((b & mask) != 0) ? 1 : 0` (R114). -/
def pixelValue (b mask : Byte) : Word := if b &&& mask ≠ 0 then 1 else 0

end Sys2Proof.Machine
end

