-- ==== Sys2Proof/Machine/Flags.lean ====
section
/-! DEFINITION. The one-bit flags `fb_valid`, `frame_loaded` and `baseline`, the derived predicate
`dc_busy` (R28), and the state checks that read them before an operation runs (R118, R177). -/

namespace Sys2Proof.Machine

/-- The controller operations, as the state check tells them apart (R177). -/
inductive DcOp where
  | init
  | lut
  | clrf
  | update
  | partialUpdate
  | display
  | sleep
deriving DecidableEq, Repr

/-- `frame_loaded <- b` (R31). -/
def State.setFrameLoaded (s : State) (b : Bool) : State := s.setDcu { s.dcu with frameLoaded := b }

/-- `baseline <- b` (R32). -/
def State.setBaseline (s : State) (b : Bool) : State := s.setDcu { s.dcu with baseline := b }

/-- `active_lut <- l` (R30). -/
def State.setActiveLut (s : State) (l : LutSel) : State := s.setDcu { s.dcu with activeLut := l }

/-- `dc_busy = (dc_state = Updating or dc_state = Displaying)` (R28). -/
def dcBusy (d : DcRegs) : Bool := decide (d.state = .updating ∨ d.state = .displaying)

/-- `DcPrecheck(op)` (R177): the code it raises, or none where the operation goes on. -/
def dcPrecheck (op : DcOp) (d : DcRegs) : Option ResultCode :=
  if d.state = .faulted then some .deviceFaulted
  else if op = .init then none
  else if d.state ≠ .idle then some .invalidState
  else if op = .display ∧ d.frameLoaded = false then some .invalidState
  else none

/-- The check of every framebuffer operation except `fb.new` (R118). -/
def fbPrecheck (fb : FbRegs) : Option ResultCode :=
  if fb.valid then none else some .invalidState

/-- An operation after its state check: a raised code ends it at once (R220 step 2). -/
def guarded (c : Option ResultCode) (s : State) (k : Host.Outcome State Fault Refusal) :
    Host.Outcome State Fault Refusal :=
  match c with
  | some c => .next (raise c s)
  | none => k

end Sys2Proof.Machine
end

