-- ==== Sys2Proof/Machine/Primitives.lean ====
section
/-! DEFINITION. The controller's sequencing primitives (R140 to R151): driving a line, one bus write,
a delay, commands and data, the bounded busy-wait and the panel's reset pulse, each as the events it
emits and the answers it takes from the environment. -/

namespace Sys2Proof.Machine

/-! ### The environment's answers -/

/-- The `k`-th bus answer still to come (R12 `env.bus()`): a fixed one while the state lists one, a
free one after that (log entry 4). -/
def busAt (v : Env) (k : Nat) : Bool :=
  match v.busAnswers[k]? with
  | some b => b
  | none => Config.freeBus (v.busDraws + k)

/-- The `k`-th level of the busy input still to be sampled (R12 `env.busy()`). -/
def busyAt (v : Env) (k : Nat) : Level :=
  match v.busyAnswers[k]? with
  | some l => l
  | none => Config.freeBusy (v.busyDraws + k)

/-- The environment after one bus answer. -/
def takeBus (v : Env) : Env := { v with busAnswers := v.busAnswers.tail, busDraws := v.busDraws + 1 }

/-- The environment after one busy sample. -/
def takeBusy (v : Env) : Env :=
  { v with busyAnswers := v.busyAnswers.tail, busyDraws := v.busyDraws + 1 }

/-! ### Lines, bus and delay -/

/-- `SetPin(line, level)` (R141): the latch, and one event even where the level is unchanged. It cannot
fail (log entry 12). -/
def setPin (line : Line) (level : Level) (s : State) : State :=
  (s.setLines (s.lines.set line level)).emit (.pin line level)

/-- `DelayMs(ms)` (R148). -/
def delayMs (ms : Word) (s : State) : State := s.emit (.delay ms)

/-- How a sequence that writes the bus ends: every write answered, or `BusFault` raised (R142). -/
inductive SendEnd where
  | sent (s : State)
  | busFault (s : State)
deriving DecidableEq, Repr

/-- The next primitive of a sequence runs only if no fault was raised (R149). -/
def andThen (r : SendEnd) (k : State → SendEnd) : SendEnd :=
  match r with
  | .sent s => k s
  | .busFault s => .busFault s

/-- `BusWrite(bytes)` (R142): one `Bus` event with the environment's answer; a failed one records the
bytes it was to send (log entry 13). -/
def busWrite (bytes : List Byte) (s : State) : SendEnd :=
  let ok := busAt s.env 0
  let s' := (s.setEnv (takeBus s.env)).emit (.bus bytes ok)
  if ok then .sent s' else .busFault s'

/-! ### Commands and data -/

/-- One framed bus write: the data/command line at `level`, chip-select active around the write.
After a failed write chip-select stays active (R149). -/
def framedWrite (level : Level) (bytes : List Byte) (s : State) : SendEnd :=
  andThen (busWrite bytes (setPin .cs s.cfg.csActive (setPin .dc level s)))
    fun s' => .sent (setPin .cs s'.cfg.csActive.not s')

/-- `SendCommand(c)` (R143). -/
def sendCommand (c : Byte) (s : State) : SendEnd := framedWrite s.cfg.dcCmdLevel [c] s

/-- `SendData(bs)` (R144): no event at all for the empty list. -/
def sendData (bs : List Byte) (s : State) : SendEnd :=
  if bs = [] then .sent s else framedWrite s.cfg.dcCmdLevel.not bs s

/-- `SendXfer((c, bs))` (R145). -/
def sendXfer (t : Xfer) (s : State) : SendEnd :=
  andThen (sendCommand t.cmd s) (sendData t.data)

/-- `SendSeq([t1, ..., tn])` (R145). -/
def sendSeq : List Xfer → State → SendEnd
  | [], s => .sent s
  | t :: ts, s => andThen (sendXfer t s) (sendSeq ts)

/-! ### Busy-wait and reset pulse -/

/-- How a busy-wait ends: the panel ready, or `BusyTimeout` raised (R146). -/
inductive WaitEnd where
  | ready (s : State)
  | timeout (s : State)
deriving DecidableEq, Repr

/-- The loop of `BusyWait` with `n` polls left (R146): sample, return if not busy, else delay. -/
def busyWait : Nat → State → WaitEnd
  | 0, s => .timeout s
  | n + 1, s =>
    let l := busyAt s.env 0
    let s' := (s.setEnv (takeBusy s.env)).emit (.busy l)
    if l ≠ s.cfg.busyActive then .ready s'
    else busyWait n (delayMs s'.cfg.pollIntervalMs s')

/-- `HardwareReset()` (R151): the panel's reset pulse. -/
def hardwareReset (s : State) : State :=
  let s1 := delayMs s.cfg.rstLowMs (setPin .rst .low s)
  delayMs s.cfg.rstHighMs (setPin .rst .high s1)

/-! ### Where a raised failure goes (R149, R150) -/

/-- The rest of an operation after a sequence; a bus fault ends it with the operation's code. -/
def SendEnd.orRaise (r : SendEnd) (code : ResultCode) (k : State → State) : State :=
  match r with
  | .sent s => k s
  | .busFault s => raise code s

/-- The rest of an operation after a busy-wait; a timeout ends it with the operation's code. -/
def WaitEnd.orRaise (r : WaitEnd) (code : ResultCode) (k : State → State) : State :=
  match r with
  | .ready s => k s
  | .timeout s => raise code s

end Sys2Proof.Machine
end

