-- ==== Sys2Proof/Machine/Controller.lean ====
section
/-! DEFINITION. The meanings of the controller unit's operations `dc.init` to `dc.sleep` (R170 to
R176). Each holds the transient state of R29 while it runs; none writes frame memory or a framebuffer
register (R40). -/

namespace Sys2Proof.Machine

/-- `dc.init` after its state check (R170): clear the flags, reset pulse, initialisation sequence,
busy-wait, default table. -/
def initSequence (s : State) : State :=
  let pv := s.cfg.pv
  let s := hardwareReset (s.setDcu ⟨.initializing, .none, false, false⟩)
  (sendSeq pv.initSeq s).orRaise .initBusFault fun s =>
    (busyWait s.cfg.busyMaxPolls s).orRaise .initTimeout fun s =>
      (sendXfer ⟨pv.lutCmd, lutTable pv .none⟩ s).orRaise .initBusFault fun s =>
        done (s.setDcState .idle)

/-- `dc.init` (R170). -/
def execDcInit (s : State) : Host.Outcome State Fault Refusal :=
  guarded (dcPrecheck .init s.dcu) s <| .next (initSequence s)

/-- `dc.lut sel` (R171). -/
def execDcLut (sel : Word) (s : State) : Host.Outcome State Fault Refusal :=
  guarded (dcPrecheck .lut s.dcu) s <| .next <|
    match lutSelOfWord sel with
    | none => raise .illegalOperation s
    | some l =>
      (sendXfer ⟨s.cfg.pv.lutCmd, lutTable s.cfg.pv l⟩ s).orRaise .cmdBusFault fun s =>
        done (s.setActiveLut l)

/-- The fill pattern of one panel image buffer, `rep(PV.clear_byte, FRAME_BYTES)` (R172). -/
def clearPattern (p : Params) : List Byte := List.replicate (frameBytes p) p.pv.clearByte

/-- `dc.clrf` (R172): old buffer first, then new. -/
def execDcClrf (s : State) : Host.Outcome State Fault Refusal :=
  guarded (dcPrecheck .clrf s.dcu) s <| .next <|
    (sendSeq [⟨s.cfg.pv.writeOldCmd, clearPattern s.cfg⟩, ⟨s.cfg.pv.writeNewCmd, clearPattern s.cfg⟩]
        (s.setDcState .updating)).orRaise .cmdBusFault fun s =>
      done ((s.setBaseline true).setDcState .idle)

/-- The end shared by both transfers to the new image buffer: `frame_loaded <- 1`,
`dc_state <- Idle`, `done` (R173, R174). -/
def transferDone (s : State) : State := done ((s.setFrameLoaded true).setDcState .idle)

/-- `dc.update addr, len` (R173). -/
def execDcUpdate (addr len : Word) (s : State) : Host.Outcome State Fault Refusal :=
  guarded (dcPrecheck .update s.dcu) s <|
    if sliceLegal s.cfg addr len = false then .next (raise .illegalOperation s)
    else if len.toNat ≠ frameBytes s.cfg then .next (raise .sizeMismatch s)
    else onAccess (s.readSlice addr.toNat len.toNat) fun bytes =>
      .next ((sendXfer ⟨s.cfg.pv.writeNewCmd, bytes⟩ (s.setDcState .updating)).orRaise
        .cmdBusFault transferDone)

/-- `dc.partial addr, len, x, y, w, h` (R174). -/
def execDcPartial (addr len x y w h : Word) (s : State) : Host.Outcome State Fault Refusal :=
  let win : Window := ⟨x.toNat, y.toNat, w.toNat, h.toNat⟩
  guarded (dcPrecheck .partialUpdate s.dcu) s <|
    if sliceLegal s.cfg addr len = false then .next (raise .illegalOperation s)
    else if len.toNat ≠ frameBytes s.cfg then .next (raise .sizeMismatch s)
    else if windowValid s.cfg win = false then .next (raise .invalidWindow s)
    else onAccess (extract s addr.toNat win) fun bytes =>
      .next ((sendSeq (windowSeq s.cfg.pv win ++ [⟨s.cfg.pv.writeNewCmd, bytes⟩])
        (s.setDcState .updating)).orRaise .cmdBusFault transferDone)

/-- `dc.display` (R175): the refresh command, then a bounded busy-wait. -/
def execDcDisplay (s : State) : Host.Outcome State Fault Refusal :=
  guarded (dcPrecheck .display s.dcu) s <| .next <|
    (sendSeq s.cfg.pv.refreshSeq (s.setDcState .displaying)).orRaise .cmdBusFault fun s =>
      (busyWait s.cfg.busyMaxPolls s).orRaise .timeout fun s => done (s.setDcState .idle)

/-- `dc.sleep` (R176): no busy-wait follows. -/
def execDcSleep (s : State) : Host.Outcome State Fault Refusal :=
  guarded (dcPrecheck .sleep s.dcu) s <| .next <|
    (sendSeq s.cfg.pv.sleepSeq s).orRaise .cmdBusFault fun s => done (s.setDcState .sleeping)

end Sys2Proof.Machine
end

