-- ==== Sys2Proof/Machine/Framebuffer.lean ====
section
/-! DEFINITION. The meanings of the framebuffer unit's operations `fb.new` to `fb.bytes` (R110 to
R115). None reads or writes a controller register, a latch or the history (R118). -/

namespace Sys2Proof.Machine

/-- `fb.new width, height, base, len` (R110). -/
def execFbNew (width height base len : Word) (s : State) : Host.Outcome State Fault Refusal :=
  .next (
    if width.toNat % 8 ≠ 0 then raise .illegalOperation s
    else if sliceLegal s.cfg base len = false then raise .illegalOperation s
    else if len.toNat ≠ width.toNat / 8 * height.toNat then raise .sizeMismatch s
    else done (s.setFb ⟨true, width, height, .rotate0, base, len⟩))

/-- `fb.rot r` (R111). -/
def execFbRot (r : Word) (s : State) : Host.Outcome State Fault Refusal :=
  guarded (fbPrecheck s.fb) s <| .next <|
    match rotationOfWord r with
    | none => raise .illegalOperation s
    | some rot => done (s.setFb { s.fb with rot := rot })

/-- `fb.clear color` (R112). -/
def execFbClear (color : Word) (s : State) : Host.Outcome State Fault Refusal :=
  guarded (fbPrecheck s.fb) s <|
    match colorOfWord color with
    | none => .next (raise .illegalOperation s)
    | some c =>
      onAccess (State.fill (colorByte c) s.fb.base.toNat s.fb.len.toNat s) fun s' => .next (done s')

/-- `fb.pix x, y, color` (R113): a read-modify-write of one byte (R72). -/
def execFbPix (x y color : Word) (s : State) : Host.Outcome State Fault Refusal :=
  guarded (fbPrecheck s.fb) s <|
    match colorOfWord color with
    | none => .next (raise .illegalOperation s)
    | some c =>
      match locate s.fb x.toNat y.toNat with
      | none => .next (done s)
      | some (a, mask) =>
        onAccess (s.load a) fun b =>
          onAccess (s.store a (paint c b mask)) fun s' => .next (done s')

/-- `fb.get x, y` (R114). -/
def execFbGet (x y : Word) (s : State) : Host.Outcome State Fault Refusal :=
  guarded (fbPrecheck s.fb) s <|
    match locate s.fb x.toNat y.toNat with
    | none => .next (done (s.setRet0 noPixel))
    | some (a, mask) => onAccess (s.load a) fun b => .next (done (s.setRet0 (pixelValue b mask)))

/-- `fb.bytes` (R115). -/
def execFbBytes (s : State) : Host.Outcome State Fault Refusal :=
  guarded (fbPrecheck s.fb) s <| .next (done ((s.setRet0 s.fb.base).setRet1 s.fb.len))

end Sys2Proof.Machine
end

