-- ==== Sys2Proof/Machine/Dispatch.lean ====
section
/-! DEFINITION. One arm per instruction, each one call of its meaning. -/

namespace Sys2Proof.Machine

def exec (i : Instr) (s : State) : Host.Outcome State Fault Refusal :=
  match i with
  -- the framebuffer unit (R110 to R115)
  | .fbNew width height base len => Sys2Proof.Machine.execFbNew width height base len s
  | .fbRot r => Sys2Proof.Machine.execFbRot r s
  | .fbClear color => Sys2Proof.Machine.execFbClear color s
  | .fbPix x y color => Sys2Proof.Machine.execFbPix x y color s
  | .fbGet x y => Sys2Proof.Machine.execFbGet x y s
  | .fbBytes => Sys2Proof.Machine.execFbBytes s
  -- the controller unit (R170 to R176)
  | .dcInit => Sys2Proof.Machine.execDcInit s
  | .dcLut sel => Sys2Proof.Machine.execDcLut sel s
  | .dcClrf => Sys2Proof.Machine.execDcClrf s
  | .dcUpdate addr len => Sys2Proof.Machine.execDcUpdate addr len s
  | .dcPartial addr len x y w h => Sys2Proof.Machine.execDcPartial addr len x y w h s
  | .dcDisplay => Sys2Proof.Machine.execDcDisplay s
  | .dcSleep => Sys2Proof.Machine.execDcSleep s

end Sys2Proof.Machine
end

