-- ==== Sys2Proof/Machine/HostPort.lean ====
section
/-! DEFINITION. The host's side of the port (R240): what it reads by name (R38), and its moves other
than GO: a write of an operand register, a store to frame memory, block reset. -/

namespace Sys2Proof.Machine

/-- The registers the host may read between operations, by name (R38). -/
inductive HostReg where
  | opw (i : Fin 7)
  | result
  | ret0
  | ret1
  | fbValid
  | fbWidth
  | fbHeight
  | fbRot
  | fbBase
  | fbLen
  | dcState
  | activeLut
  | frameLoaded
  | baseline
  /-- SR10: `cs` in bit 0, `dc` in bit 1, `rst` in bit 2 (R33). -/
  | lines
deriving DecidableEq, Repr

/-- The value of a register as the host reads it, by the encodings of R13, R33 and R200 (DEDUCED, log
entry 15). -/
def hostRead (s : State) : HostReg → Nat
  | .opw i => (operandWord s.opw i).toNat
  | .result => (resultCodeBits s.result).toNat
  | .ret0 => s.ret0.toNat
  | .ret1 => s.ret1.toNat
  | .fbValid => s.fb.valid.toNat
  | .fbWidth => s.fb.width.toNat
  | .fbHeight => s.fb.height.toNat
  | .fbRot => rotationCode s.fb.rot
  | .fbBase => s.fb.base.toNat
  | .fbLen => s.fb.len.toNat
  | .dcState => dcStateCode s.dcu.state
  | .activeLut => lutSelCode s.dcu.activeLut
  | .frameLoaded => s.dcu.frameLoaded.toNat
  | .baseline => s.dcu.baseline.toNat
  | .lines => levelCode s.lines.cs + 2 * levelCode s.lines.dc + 4 * levelCode s.lines.rst

/-- The host writes OPW`i` (R21). -/
def hostWriteOpw (i : Fin 7) (v : Word) (s : State) : Host.Outcome State Fault Refusal :=
  .next (s.setOpw (setOperandWord s.opw i v))

/-- The host stores a byte of frame memory (R240); it has no move at an address that does not exist
(R60), where this stops (DESIGN CHOICE, log entry 9). -/
def hostStore (a : Nat) (v : Byte) (s : State) : Host.Outcome State Fault Refusal :=
  onAccess (s.store a v) .next

/-- The host asserts block reset (R230, R232). -/
def hostReset (s : State) : Host.Outcome State Fault Refusal := .next (blockReset s)

/-- The moves that start one operation: write its seven words, then GO (R25). -/
def startMoves (d : Descriptor) : List HostMove :=
  [.writeOpw 0 d.w0, .writeOpw 1 d.w1, .writeOpw 2 d.w2, .writeOpw 3 d.w3, .writeOpw 4 d.w4,
   .writeOpw 5 d.w5, .writeOpw 6 d.w6, .go]

/-- A host program, a finite list of descriptors run first to last (R24). -/
def hostProgram (ds : List Descriptor) : List HostMove := ds.flatMap startMoves

end Sys2Proof.Machine
end

