-- ==== Sys2Proof/Machine/Sequencer.lean ====
section
/-! DEFINITION. What GO starts (R25, R73): EPDC reads OPW0 to OPW6 once, decodes them and runs the
whole operation. And what each move of the host does. -/

namespace Sys2Proof.Machine

/-- The operation that OPW0 to OPW6 describe, run whole (R25).
An undecodable descriptor ends with `IllegalOperation` and no other effect (R84, R209). -/
def runDescriptor (s : State) : Host.Outcome State Fault Refusal :=
  match decode s.opw with
  | .ok i => exec i s
  | .error _ => .next (raise .illegalOperation s)

/-- One move of the host (R240). -/
def hostMove (m : HostMove) (s : State) : Host.Outcome State Fault Refusal :=
  match m with
  | .writeOpw i v => hostWriteOpw i v s
  | .store a v => hostStore a v s
  | .go => runDescriptor s
  | .reset => hostReset s

/-- The next move of the host; with none pending EPDC waits for a GO and nothing changes (R233;
DESIGN CHOICE, log entry 7). -/
def nextMove (s : State) : Host.Outcome State Fault Refusal :=
  match s.host with
  | [] => .next s
  | m :: rest => hostMove m (s.setHost rest)

/-- OPW0 to OPW6 hold the descriptor of a table word and the host's next move is GO (DESIGN CHOICE, log
entry 8). -/
def placeDescriptor (s : State) (nbits w : Nat) : State :=
  (s.setOpw (Descriptor.ofBits nbits w)).setHost (.go :: s.host)

end Sys2Proof.Machine
end

