-- ==== Sys2Proof/Machine/Step.lean ====
section
/-! DEFINITION. One step of the machine: one move of the host, an operation being one atomic step
(R25). -/

namespace Sys2Proof.Machine

/-- One step: the host's next move, done whole (R25, R70; DEDUCED, log entry 10). -/
def step (s : State) : Host.Outcome State Fault Refusal := nextMove s

/-- The state in which the next step fetches and runs the instruction whose low `nbits` bits are
those of `w` and whose other bits are 0: its descriptor stands in OPW0 to OPW6, GO is the host's next
move, and nothing else differs. -/
def State.withFetchWord (s : State) (nbits w : Nat) : State := placeDescriptor s nbits w

end Sys2Proof.Machine
end

