-- ==== Sys2Proof/Safety.lean ====
section
/-! DEFINITION. The terms in which claims about EPDC are stated: the invariant of a state between
operations, what an operation leaves alone, the events a sequence of transfers emits, and what a
controller operation needs to run. -/

namespace Sys2Proof.Machine

/-! ### The history -/

/-- A `Bus` event. -/
def isBus : Event → Bool
  | .bus _ _ => true
  | .pin _ _ => false
  | .delay _ => false
  | .busy _ => false
  | .reset => false

/-- The bus write counter: the number of `Bus` events in `H` (R152). -/
def busCount (h : List Event) : Nat := h.countP isBus

/-- A `Busy` event. -/
def isBusy : Event → Bool
  | .busy _ => true
  | .pin _ _ => false
  | .bus _ _ => false
  | .delay _ => false
  | .reset => false

/-- The number of busy samples taken: the `Busy` events in `H` (R10, R146). -/
def busyCount (h : List Event) : Nat := h.countP isBusy

/-- The byte list of a `Bus` event is never empty (R10). -/
def carriesBytes : Event → Bool
  | .bus bytes _ => decide (bytes ≠ [])
  | .pin _ _ => true
  | .delay _ => true
  | .busy _ => true
  | .reset => true

/-! ### The invariant of a state between operations -/

/-- The framebuffer invariant of R27. -/
structure FbInv (p : Params) (fb : FbRegs) : Prop where
  widthMultiple : fb.valid = true → fb.width.toNat % 8 = 0
  lenIsArea     : fb.valid = true → fb.len.toNat = fb.width.toNat / 8 * fb.height.toNat
  inMemory      : fb.valid = true → fb.base.toNat + fb.len.toNat ≤ p.memBytes

/-- Between operations `dc_state` is one of four values (R29). -/
abbrev Settled (x : DcState) : Prop := x = .uninit ∨ x = .idle ∨ x = .sleeping ∨ x = .faulted

/-- What holds at power-on and between any two operations. -/
structure Inv (s : State) : Prop where
  /-- The parameters meet R6 to R8. -/
  params     : s.cfg.Valid
  /-- R27. -/
  fb         : FbInv s.cfg s.fb
  /-- R29. -/
  settled    : Settled s.dcu.state
  /-- Nothing has been sent with success while `dc_state` is `Uninit` (R39, R180). -/
  fresh      : s.dcu.state = .uninit → s.dcu = ⟨.uninit, .none, false, false⟩
  /-- The reset line rests high: every reset pulse ends there (R151, R233). -/
  resetHigh  : s.lines.rst = .high
  /-- Memory is in canonical form. -/
  canonical  : Memory.wf s.mem = true
  /-- Memory lists no address that does not exist (R60). -/
  inMemory   : Memory.below s.cfg.memBytes s.mem = true
  /-- R10. -/
  busBytes   : ∀ e ∈ s.history, carriesBytes e = true
  /-- The host has a store pending only where `M` has a byte (R240). -/
  hostStores : ∀ a v, HostMove.store a v ∈ s.host → a < s.cfg.memBytes

/-! ### Families and frames -/

/-- The framebuffer family, opcodes `0x10` to `0x15` (R85). -/
def isFb : Instr → Bool
  | .fbNew _ _ _ _ => true
  | .fbRot _ => true
  | .fbClear _ => true
  | .fbPix _ _ _ => true
  | .fbGet _ _ => true
  | .fbBytes => true
  | .dcInit => false
  | .dcLut _ => false
  | .dcClrf => false
  | .dcUpdate _ _ => false
  | .dcPartial _ _ _ _ _ _ => false
  | .dcDisplay => false
  | .dcSleep => false

/-- The controller family, opcodes `0x20` to `0x26` (R85). -/
def isDc (i : Instr) : Bool := !isFb i

/-- Every byte of frame memory reads as before. -/
def SameBytes (s t : State) : Prop := ∀ a, t.load a = s.load a

/-- What no controller operation writes (R40): everything but `dc_state` to `baseline`, the latches,
RESULT, `H` and the environment's answers. -/
structure DcFrame (s t : State) : Prop where
  cfg    : t.cfg = s.cfg
  opw    : t.opw = s.opw
  ret0   : t.ret0 = s.ret0
  ret1   : t.ret1 = s.ret1
  fb     : t.fb = s.fb
  bytes  : SameBytes s t
  host   : t.host = s.host
  resets : t.env.resets = s.env.resets

/-- What no framebuffer operation writes (R40, R118): the controller's registers, the latches, `H`,
the environment's answers, the operand registers. -/
structure FbFrame (s t : State) : Prop where
  cfg     : t.cfg = s.cfg
  opw     : t.opw = s.opw
  dcu     : t.dcu = s.dcu
  lines   : t.lines = s.lines
  history : t.history = s.history
  host    : t.host = s.host
  env     : t.env = s.env

/-- An address of the framebuffer's region `M[fb_base ..+ fb_len]` (R26). -/
def InBitmap (fb : FbRegs) (a : Nat) : Prop :=
  fb.base.toNat ≤ a ∧ a < fb.base.toNat + fb.len.toNat

/-- The outcome with its next state changed. -/
def mapNext (f : State → State) :
    Host.Outcome State Fault Refusal → Host.Outcome State Fault Refusal
  | .next s => .next (f s)
  | .fault r => .fault r
  | .refused r => .refused r

/-! ### What the bytes of a transfer are -/

/-- `M[a ..+ n]` (R12), entry by entry. -/
def sliceBytes (m : Memory) (a n : Nat) : List Byte :=
  (List.range n).map fun i => Memory.read m (a + i)

/-- The bytes of `Extract` (R179): row `r`, byte `j` is `M[addr + (y + r) * DEV_STRIDE + x / 8 + j]`. -/
def windowBytes (p : Params) (m : Memory) (addr : Nat) (win : Window) : List Byte :=
  (List.range win.h).flatMap fun r =>
    sliceBytes m (addr + (win.y + r) * devStride p + win.x / 8) (win.w / 8)

/-! ### What a sequence of transfers does, as a list of framed bus writes -/

/-- One framed bus write: the level of the data/command line and the bytes (R143, R144). -/
structure Frame where
  level : Level
  bytes : List Byte
deriving DecidableEq, Repr

/-- The framed writes of one transfer: the command byte, then the data if there is any (R145). -/
def xferFrames (p : Params) (t : Xfer) : List Frame :=
  ⟨p.dcCmdLevel, [t.cmd]⟩ :: if t.data = [] then [] else [⟨p.dcCmdLevel.not, t.data⟩]

/-- The framed writes of a sequence, in list order (R145). -/
def seqFrames (p : Params) (ts : List Xfer) : List Frame := ts.flatMap (xferFrames p)

/-- The four events of a framed write that the bus answers with success (R143). -/
def frameEvents (p : Params) (f : Frame) : List Event :=
  [.pin .dc f.level, .pin .cs p.csActive, .bus f.bytes true, .pin .cs p.csActive.not]

/-- The three events of a framed write that fails: chip-select is not released (R149). -/
def failedEvents (p : Params) (f : Frame) : List Event :=
  [.pin .dc f.level, .pin .cs p.csActive, .bus f.bytes false]

/-- The latches after framed writes that all succeed: chip-select inactive, data/command at the last
one's level. -/
def linesAfter (p : Params) (l : Lines) (fs : List Frame) : Lines :=
  match fs.getLast? with
  | some f => { l with cs := p.csActive.not, dc := f.level }
  | none => l

/-- The environment after `n` bus answers and `k` busy samples. -/
def envAfter (v : Env) (n k : Nat) : Env :=
  { v with
    busAnswers := v.busAnswers.drop n
    busDraws := v.busDraws + n
    busyAnswers := v.busyAnswers.drop k
    busyDraws := v.busyDraws + k }

/-- The next `n` bus writes all succeed. -/
def BusOk (v : Env) (n : Nat) : Prop := ∀ k < n, busAt v k = true

/-- The first bus write that fails is the one after `n` successes. -/
def BusFailsAt (v : Env) (n : Nat) : Prop := BusOk v n ∧ busAt v n = false

/-- The panel reports ready at the busy sample after `k` busy ones (R146). -/
def ReadyAt (p : Params) (v : Env) (k : Nat) : Prop :=
  (∀ j < k, busyAt v j = p.busyActive) ∧ busyAt v k ≠ p.busyActive

/-- The panel stays busy for a whole busy-wait (R146). -/
def NeverReady (p : Params) (v : Env) : Prop := ∀ j < p.busyMaxPolls, busyAt v j = p.busyActive

/-- `n` busy samples, each followed by the poll delay (R146). -/
def pollEvents (p : Params) : Nat → List Event
  | 0 => []
  | n + 1 => .busy p.busyActive :: .delay p.pollIntervalMs :: pollEvents p n

/-- The events of a busy-wait that returns after `k` busy samples (R146). -/
def waitEvents (p : Params) (k : Nat) : List Event := pollEvents p k ++ [.busy p.busyActive.not]

/-- The events of the panel's reset pulse (R151). -/
def pulseEvents (p : Params) : List Event :=
  [.pin .rst .low, .delay p.rstLowMs, .pin .rst .high, .delay p.rstHighMs]

/-- The transfer of the default waveform table that ends `dc.init` (R170). -/
def defaultTable (pv : PanelVariant) : Xfer := ⟨pv.lutCmd, pv.lutDefault⟩

/-! ### The six controller operations other than `dc.init` -/

/-- The checks of R220 steps 2 to 5 all pass, so the operation goes on to execution.
The window's clause is the numbers of R178, whose `x < DEV_WIDTH` and `y < DEV_HEIGHT` follow from the
others. -/
def Runs (s : State) : Instr → Prop
  | .dcLut sel => s.dcu.state = .idle ∧ sel.toNat < 3
  | .dcClrf => s.dcu.state = .idle
  | .dcUpdate addr len =>
      s.dcu.state = .idle ∧ addr.toNat + len.toNat ≤ s.cfg.memBytes ∧
        len.toNat = frameBytes s.cfg
  | .dcPartial addr len x y w h =>
      s.dcu.state = .idle ∧ addr.toNat + len.toNat ≤ s.cfg.memBytes ∧
        len.toNat = frameBytes s.cfg ∧
        1 ≤ w.toNat ∧ 1 ≤ h.toNat ∧
        x.toNat + w.toNat ≤ s.cfg.devWidth ∧ y.toNat + h.toNat ≤ s.cfg.devHeight ∧
        w.toNat % s.cfg.granX = 0 ∧ h.toNat % s.cfg.granY = 0
  | .dcDisplay => s.dcu.state = .idle ∧ s.dcu.frameLoaded = true
  | .dcSleep => s.dcu.state = .idle
  | .dcInit => False
  | .fbNew _ _ _ _ => False
  | .fbRot _ => False
  | .fbClear _ => False
  | .fbPix _ _ _ => False
  | .fbGet _ _ => False
  | .fbBytes => False

/-- The waveform table that a selector word names (R13, R8). -/
def tableOf (pv : PanelVariant) (sel : Nat) : List Byte :=
  if sel = 0 then pv.lutDefault else if sel = 1 then pv.lutFull else pv.lutQuick

/-- The transfers the operation puts on the bus (R171 to R176). -/
def transfers (s : State) : Instr → List Xfer
  | .dcLut sel => [⟨s.cfg.pv.lutCmd, tableOf s.cfg.pv sel.toNat⟩]
  | .dcClrf =>
      [⟨s.cfg.pv.writeOldCmd, List.replicate (frameBytes s.cfg) s.cfg.pv.clearByte⟩,
       ⟨s.cfg.pv.writeNewCmd, List.replicate (frameBytes s.cfg) s.cfg.pv.clearByte⟩]
  | .dcUpdate addr len => [⟨s.cfg.pv.writeNewCmd, sliceBytes s.mem addr.toNat len.toNat⟩]
  | .dcPartial addr _ x y w h =>
      windowSeq s.cfg.pv ⟨x.toNat, y.toNat, w.toNat, h.toNat⟩ ++
        [⟨s.cfg.pv.writeNewCmd,
          windowBytes s.cfg s.mem addr.toNat ⟨x.toNat, y.toNat, w.toNat, h.toNat⟩⟩]
  | .dcDisplay => s.cfg.pv.refreshSeq
  | .dcSleep => s.cfg.pv.sleepSeq
  | .dcInit => []
  | .fbNew _ _ _ _ => []
  | .fbRot _ => []
  | .fbClear _ => []
  | .fbPix _ _ _ => []
  | .fbGet _ _ => []
  | .fbBytes => []

/-- The framed writes the operation puts on the bus. -/
def opFrames (s : State) (i : Instr) : List Frame := seqFrames s.cfg (transfers s i)

/-- The framed writes `dc.init` puts on the bus: before its busy-wait, and after it (R170). -/
def initFrames (s : State) : List Frame := seqFrames s.cfg s.cfg.pv.initSeq

/-- The framed writes of the default waveform table. -/
def tableFrames (s : State) : List Frame := xferFrames s.cfg (defaultTable s.cfg.pv)

/-- The state after transfers that all succeed: the latches, `H` and the environment. -/
def sent (s : State) (fs : List Frame) : State :=
  { s with
    lines := linesAfter s.cfg s.lines fs
    history := s.history ++ fs.flatMap (frameEvents s.cfg)
    env := envAfter s.env fs.length 0 }

/-- The state after transfers of which the one after `k` successes fails (R149): chip-select stays
active, data/command stays where it was. -/
def sentUpTo (s : State) (fs : List Frame) (k : Nat) (f : Frame) : State :=
  { s with
    lines := { s.lines with cs := s.cfg.csActive, dc := f.level }
    history := s.history ++ (fs.take k).flatMap (frameEvents s.cfg) ++ failedEvents s.cfg f
    env := envAfter s.env (k + 1) 0 }

/-- The state after a busy-wait that returns after `k` busy samples. -/
def waited (s : State) (k : Nat) : State :=
  { s with history := s.history ++ waitEvents s.cfg k, env := envAfter s.env 0 (k + 1) }

/-- The state after a busy-wait that times out. -/
def timedOut (s : State) : State :=
  { s with
    history := s.history ++ pollEvents s.cfg s.cfg.busyMaxPolls
    env := envAfter s.env 0 s.cfg.busyMaxPolls }

/-- The state after the reset pulse. -/
def pulsed (s : State) : State :=
  { s with lines := { s.lines with rst := .high }, history := s.history ++ pulseEvents s.cfg }

end Sys2Proof.Machine
end

