-- ==== Sys2Proof/Certificates/Slice0/Obligations.lean ====
section
/-! DEFINITION. The statements about EPDC for the provers, from the numbered rules of spec/. -/

open Sys2Proof Sys2Proof.Machine

/-! ### Encoding -/

/-- R80, R81, R84, R85, R88: no operand bit of an operation is lost between the assembler and the
decoder. -/
def Obligations.DecodeOfEncode : Prop := ∀ i : Instr, decode (encode i) = .ok i

/-- R80, R81, R82, R84: a descriptor decodes to an operation exactly when OPW0 is its opcode with the
reserved bits 0 and OPW1 to OPWk are its operands in order; the words after OPWk do not matter. -/
def Obligations.DecodeReadsExactlyItsWords : Prop :=
  ∀ (d : Descriptor) (i : Instr),
    decode d = .ok i ↔
      d.w0 = (encode i).w0 ∧ d.operandWords.take i.operands.length = i.operands

/-- R84, R85, R86 cases 1 and 2: the two illegal exits, in their order, and no other. -/
def Obligations.DecodeRejectsExactlyTheIllegal : Prop :=
  ∀ d : Descriptor,
    (decode d = .error .reservedBits ↔ d.w0.toNat / 256 ≠ 0) ∧
    (decode d = .error .unknownOpcode ↔
      d.w0.toNat / 256 = 0 ∧ ¬ (0x10 ≤ d.w0.toNat % 256 ∧ d.w0.toNat % 256 ≤ 0x15) ∧
        ¬ (0x20 ≤ d.w0.toNat % 256 ∧ d.w0.toNat % 256 ≤ 0x26))

/-- Descriptors written out from R80, R81 and R85 decode to the operations they stand for, and two
that R86 calls illegal do not decode. -/
def Obligations.WrittenWordsDecode : Prop :=
  decode ⟨0x10, 200, 200, 4096, 5000, 0, 0⟩ = .ok (.fbNew 200 200 4096 5000) ∧
  decode ⟨0x13, 0xA, 0xB, 1, 0, 0, 0⟩ = .ok (.fbPix 10 11 1) ∧
  decode ⟨0x15, 0xDEADBEEF, 0x12345678, 0xFFFFFFFF, 1, 2, 3⟩ = .ok .fbBytes ∧
  decode ⟨0x21, 2, 0, 0, 0, 0, 0⟩ = .ok (.dcLut 2) ∧
  decode ⟨0x24, 0, 32, 8, 9, 16, 24⟩ = .ok (.dcPartial 0 32 8 9 16 24) ∧
  decode ⟨0x26, 0, 0, 0, 0, 0, 0⟩ = .ok .dcSleep ∧
  decode ⟨0x113, 0, 0, 0, 0, 0, 0⟩ = .error .reservedBits ∧
  decode ⟨0x27, 0, 0, 0, 0, 0, 0⟩ = .error .unknownOpcode

/-! ### A step, and the host's moves -/

/-- R25: a GO on a descriptor that decodes runs exactly that operation, whole. -/
def Obligations.GoRunsTheDecodedOperation : Prop :=
  ∀ (s : State) (rest : List HostMove) (i : Instr),
    s.host = .go :: rest → decode s.opw = .ok i → step s = exec i (s.setHost rest)

/-- R84, R209: a GO on an undecodable descriptor ends with `IllegalOperation` and no other effect, in
every state. -/
def Obligations.UndecodableDescriptorIsIllegal : Prop :=
  ∀ (s : State) (rest : List HostMove) (e : DecodeReject),
    s.host = .go :: rest → decode s.opw = .error e →
      step s = .next ((s.setHost rest).setResult .illegalOperation)

/-- R24, R25: from any state, the moves that start an operation write its seven words and then run
it, with nothing else done in between. -/
def Obligations.StartMovesRunTheDescriptor : Prop :=
  ∀ (s : State) (d : Descriptor) (rest : List HostMove) (i : Instr),
    decode d = .ok i →
      Host.Core.run Sys2Proof.core 8 (s.setHost (startMoves d ++ rest)) =
        exec i ((s.setOpw d).setHost rest)

/-- R61, R240: a host store replaces one byte and nothing else; at an address that R60 says does not
exist the step stops. -/
def Obligations.HostStoreWritesOneByte : Prop :=
  ∀ (s : State) (rest : List HostMove) (a : Nat) (v : Byte),
    s.host = .store a v :: rest → Memory.wf s.mem = true →
      (a < s.cfg.memBytes → ∃ t, step s = .next t ∧ t = (s.setHost rest).setMem t.mem ∧
        ∀ b, t.load b = if b = a then some v else s.load b) ∧
      (s.cfg.memBytes ≤ a → step s = .fault .noSuchAddress)

/-- R21, R240: a host write of OPWi changes that word alone. -/
def Obligations.HostWritesOneOperandWord : Prop :=
  ∀ (s : State) (rest : List HostMove) (i : Fin 7) (v : Word),
    s.host = .writeOpw i v :: rest →
      ∃ t, step s = .next t ∧ t = (s.setHost rest).setOpw t.opw ∧
        operandWord t.opw i = v ∧ ∀ j, j ≠ i → operandWord t.opw j = operandWord s.opw j

/-- R233: with no move of the host pending nothing changes; EPDC waits for a GO. -/
def Obligations.NothingHappensWithoutAMove : Prop :=
  ∀ s : State, s.host = [] → step s = .next s

/-- R230, R231: a host-triggered block reset sets every register to its value of R39, appends one
`Reset` event and no other, keeps `M`, and cannot fail. Nothing is said of OPW0 to OPW6, which it
leaves unspecified. -/
def Obligations.BlockResetRestoresResetValues : Prop :=
  ∀ (s : State) (rest : List HostMove), s.host = .reset :: rest →
    ∃ t, step s = .next t ∧
      t.result = .noResult ∧ t.ret0 = 0 ∧ t.ret1 = 0 ∧
      t.fb = ⟨false, 0, 0, .rotate0, 0, 0⟩ ∧
      t.dcu = ⟨.uninit, .none, false, false⟩ ∧
      t.lines = ⟨s.cfg.csActive.not, s.cfg.dcCmdLevel.not, .high⟩ ∧
      t.history = s.history ++ [.reset] ∧
      t.mem = s.mem ∧ (∀ a, t.load a = s.load a) ∧ t.cfg = s.cfg ∧ t.host = rest ∧
      busAt t.env = busAt s.env ∧ busyAt t.env = busyAt s.env

/-- R39: the registers at power-on, by name, and the history that holds the one `Reset` event.
Nothing is said of OPW0 to OPW6 or of `M`, which the spec leaves unspecified. -/
def Obligations.PowerOnState : Prop :=
  hostRead State.reset .result = 0xF ∧ hostRead State.reset .ret0 = 0 ∧
  hostRead State.reset .ret1 = 0 ∧ hostRead State.reset .fbValid = 0 ∧
  hostRead State.reset .fbWidth = 0 ∧ hostRead State.reset .fbHeight = 0 ∧
  hostRead State.reset .fbRot = 0 ∧ hostRead State.reset .fbBase = 0 ∧
  hostRead State.reset .fbLen = 0 ∧ hostRead State.reset .dcState = 0 ∧
  hostRead State.reset .activeLut = 0 ∧ hostRead State.reset .frameLoaded = 0 ∧
  hostRead State.reset .baseline = 0 ∧
  State.reset.lines = ⟨State.reset.cfg.csActive.not, State.reset.cfg.dcCmdLevel.not, .high⟩ ∧
  State.reset.history = [.reset]

/-! ### Framebuffer unit -/

/-- R110: `fb.new` with a width that is a multiple of 8, a legal slice and the right length creates
the framebuffer, unrotated, over whatever the region holds. -/
def Obligations.FbNewCreates : Prop :=
  ∀ (s : State) (width height base len : Word),
    width.toNat % 8 = 0 → base.toNat + len.toNat ≤ s.cfg.memBytes →
    len.toNat = width.toNat / 8 * height.toNat →
      exec (.fbNew width height base len) s =
        .next { s with fb := ⟨true, width, height, .rotate0, base, len⟩, result := .ok }

/-- R110, R220: the checks of `fb.new` in their order, each leaving everything but RESULT alone. -/
def Obligations.FbNewRefusesInOrder : Prop :=
  ∀ (s : State) (width height base len : Word),
    (width.toNat % 8 ≠ 0 →
      exec (.fbNew width height base len) s = .next { s with result := .illegalOperation }) ∧
    (s.cfg.memBytes < base.toNat + len.toNat →
      exec (.fbNew width height base len) s = .next { s with result := .illegalOperation }) ∧
    (width.toNat % 8 = 0 → base.toNat + len.toNat ≤ s.cfg.memBytes →
      len.toNat ≠ width.toNat / 8 * height.toNat →
      exec (.fbNew width height base len) s = .next { s with result := .sizeMismatch })

/-- R111: `fb.rot` changes `fb_rot` and RESULT alone; a value above 3 is illegal; the state check comes
first. -/
def Obligations.FbRotSetsTheRotation : Prop :=
  ∀ (s : State) (r : Word),
    (s.fb.valid = false → exec (.fbRot r) s = .next { s with result := .invalidState }) ∧
    (s.fb.valid = true → r.toNat ≤ 3 → ∃ rot, rotationCode rot = r.toNat ∧
      exec (.fbRot r) s = .next { s with fb := { s.fb with rot := rot }, result := .ok }) ∧
    (s.fb.valid = true → 3 < r.toNat →
      exec (.fbRot r) s = .next { s with result := .illegalOperation })

/-- R112: `fb.clear` makes every byte of the bitmap the colour's fill byte and changes no other byte
and no register but RESULT; the state check comes before the colour check. -/
def Obligations.FbClearFillsTheBitmap : Prop :=
  ∀ (s : State) (color : Word), FbInv s.cfg s.fb → Memory.wf s.mem = true →
    (s.fb.valid = false → exec (.fbClear color) s = .next { s with result := .invalidState }) ∧
    (s.fb.valid = true → 1 < color.toNat →
      exec (.fbClear color) s = .next { s with result := .illegalOperation }) ∧
    (s.fb.valid = true → color.toNat ≤ 1 →
      ∃ t, exec (.fbClear color) s = .next t ∧ t = { s with mem := t.mem, result := .ok } ∧
        (∀ i < s.fb.len.toNat,
          t.load (s.fb.base.toNat + i) = some (if color.toNat = 1 then 0xFF else 0x00)) ∧
        ∀ a, ¬ InBitmap s.fb a → t.load a = s.load a)

/-- R113: `fb.pix` sets or clears the one bit `Locate` names and nothing else; out of range it is
`Ok` with no change; the checks come in the order state, colour, range. -/
def Obligations.FbPixWritesOneBit : Prop :=
  ∀ (s : State) (x y color : Word), FbInv s.cfg s.fb → Memory.wf s.mem = true →
    (s.fb.valid = false → exec (.fbPix x y color) s = .next { s with result := .invalidState }) ∧
    (s.fb.valid = true → 1 < color.toNat →
      exec (.fbPix x y color) s = .next { s with result := .illegalOperation }) ∧
    (s.fb.valid = true → color.toNat ≤ 1 → locate s.fb x.toNat y.toNat = none →
      exec (.fbPix x y color) s = .next { s with result := .ok }) ∧
    (s.fb.valid = true → color.toNat ≤ 1 →
      ∀ a mask, locate s.fb x.toNat y.toNat = some (a, mask) →
        ∃ b t, s.load a = some b ∧ exec (.fbPix x y color) s = .next t ∧
          t = { s with mem := t.mem, result := .ok } ∧
          t.load a = some (if color.toNat = 1 then b ||| mask else b &&& ~~~mask) ∧
          ∀ a', a' ≠ a → t.load a' = s.load a')

/-- R114: `fb.get` answers 1 for a set bit, 0 for a clear one, `0xFFFFFFFF` out of range, always with
`Ok`, and writes RET0 and RESULT alone. -/
def Obligations.FbGetReadsOneBit : Prop :=
  ∀ (s : State) (x y : Word), FbInv s.cfg s.fb → s.fb.valid = true →
    (locate s.fb x.toNat y.toNat = none →
      exec (.fbGet x y) s = .next { s with ret0 := 0xFFFFFFFF, result := .ok }) ∧
    (∀ a mask, locate s.fb x.toNat y.toNat = some (a, mask) →
      ∃ b, s.load a = some b ∧
        exec (.fbGet x y) s =
          .next { s with ret0 := if b &&& mask = 0 then 0 else 1, result := .ok })

/-- R115: `fb.bytes` returns the slice of the bitmap. -/
def Obligations.FbBytesReturnsTheSlice : Prop :=
  ∀ s : State, s.fb.valid = true →
    exec .fbBytes s = .next { s with ret0 := s.fb.base, ret1 := s.fb.len, result := .ok }

/-- R40, R118, R121: what a framebuffer operation leaves alone. Only `fb.clear` and `fb.pix` write
memory, and only inside the bitmap; only `fb.new` and `fb.rot` write a framebuffer register, and
`fb.rot` only the rotation. -/
def Obligations.FramebufferFrame : Prop :=
  ∀ (i : Instr) (s t : State), isFb i = true → FbInv s.cfg s.fb → Memory.wf s.mem = true →
    exec i s = .next t →
      FbFrame s t ∧
      (∀ a, ¬ InBitmap s.fb a → t.load a = s.load a) ∧
      ((∀ c, i ≠ .fbClear c) → (∀ x y c, i ≠ .fbPix x y c) → SameBytes s t ∧ t.mem = s.mem) ∧
      ((∀ w h b l, i ≠ .fbNew w h b l) → t.fb = { s.fb with rot := t.fb.rot }) ∧
      ((∀ w h b l, i ≠ .fbNew w h b l) → (∀ r, i ≠ .fbRot r) → t.fb = s.fb)

/-- R120: a pixel written where `Locate` accepts reads back as the colour written, under every
rotation. -/
def Obligations.PixelReadsBack : Prop :=
  ∀ (s : State) (x y color : Word), FbInv s.cfg s.fb → Memory.wf s.mem = true →
    s.fb.valid = true → color.toNat ≤ 1 → locate s.fb x.toNat y.toNat ≠ none →
      ∃ t u, exec (.fbPix x y color) s = .next t ∧ exec (.fbGet x y) t = .next u ∧
        u.ret0 = color ∧ u.result = .ok

/-- R124: a pixel write changes the read-back of no other pixel. -/
def Obligations.PixelWriteLeavesOtherPixels : Prop :=
  ∀ (s : State) (x y color x' y' : Word), FbInv s.cfg s.fb → Memory.wf s.mem = true →
    s.fb.valid = true → color.toNat ≤ 1 → (x, y) ≠ (x', y') →
      ∃ t u v, exec (.fbPix x y color) s = .next t ∧ exec (.fbGet x' y') s = .next u ∧
        exec (.fbGet x' y') t = .next v ∧ v.ret0 = u.ret0

/-- R124: two accepted points with one address and mask are one point. -/
def Obligations.LocateIsInjective : Prop :=
  ∀ (p : Params) (fb : FbRegs) (x y x' y' a : Nat) (mask : Byte),
    FbInv p fb → fb.valid = true →
    locate fb x y = some (a, mask) → locate fb x' y' = some (a, mask) → x = x' ∧ y = y'

/-- R116, R117, R65, R67, R63: an accepted point lies in the logical range, its address inside the
bitmap, hence inside `M`, and its address and mask are those of the point `(x', y')` that the row of
R116's table for `fb_rot` gives: `fb_base + y' * (W / 8) + x' / 8` and `0x80 >> (x' mod 8)`. -/
def Obligations.LocateStaysInTheBitmap : Prop :=
  ∀ (p : Params) (fb : FbRegs) (x y a : Nat) (mask : Byte),
    FbInv p fb → fb.valid = true → locate fb x y = some (a, mask) →
      let W := fb.width.toNat
      let Ht := fb.height.toNat
      let isPixel := fun x' y' : Nat => x' < W ∧ y' < Ht ∧
        a = fb.base.toNat + y' * (W / 8) + x' / 8 ∧ mask = 0x80#8 >>> (x' % 8)
      x < W ∧ y < Ht ∧ InBitmap fb a ∧ a < p.memBytes ∧ (∃ k < 8, mask = 0x80#8 >>> k) ∧
      (fb.rot = .rotate0 → isPixel x y) ∧
      (fb.rot = .rotate90 → isPixel (Ht - 1 - y) x) ∧
      (fb.rot = .rotate180 → isPixel (W - 1 - x) (Ht - 1 - y)) ∧
      (fb.rot = .rotate270 → isPixel y (W - 1 - x))

/-- R117, R119: which in-range points are rejected: none under `Rotate0` and `Rotate180` or on a square
bitmap, and exactly those R119 lists under `Rotate90` and `Rotate270`. -/
def Obligations.LocateRejectsExactly : Prop :=
  ∀ (fb : FbRegs) (x y : Nat), x < fb.width.toNat → y < fb.height.toNat →
    (fb.rot = .rotate0 ∨ fb.rot = .rotate180 ∨ fb.width = fb.height → locate fb x y ≠ none) ∧
    (fb.rot = .rotate90 → (locate fb x y = none ↔
      fb.width.toNat ≤ fb.height.toNat - 1 - y ∨ fb.height.toNat ≤ x)) ∧
    (fb.rot = .rotate270 → (locate fb x y = none ↔
      fb.width.toNat ≤ y ∨ fb.height.toNat ≤ fb.width.toNat - 1 - x))

/-- R122: clearing to white and then to black leaves the state that clearing to black alone leaves. -/
def Obligations.ClearOverwritesClear : Prop :=
  ∀ s : State, FbInv s.cfg s.fb → Memory.wf s.mem = true → s.fb.valid = true →
    ∃ t u, exec (.fbClear 1) s = .next t ∧ exec (.fbClear 0) t = .next u ∧
      exec (.fbClear 0) s = .next u

/-- R123, R27: the bitmap's length is `ceil(width * height / 8)`, and no operation but `fb.new` changes
it, whatever `fb.rot` is given. -/
def Obligations.LengthFollowsTheGeometry : Prop :=
  ∀ (i : Instr) (s t : State), FbInv s.cfg s.fb → s.fb.valid = true → exec i s = .next t →
    t.fb.valid = true ∧
    t.fb.len.toNat = ceilDiv (t.fb.width.toNat * t.fb.height.toNat) 8 ∧
    ((∀ w h b l, i ≠ .fbNew w h b l) → t.fb.len = s.fb.len)

/-! ### Controller unit: operations that end with Ok -/

/-- R170: `dc.init` in any state but `Faulted`, all its bus writes answered and the panel ready within
the bound: reset pulse, initialisation sequence, busy-wait, default table, in this order. -/
def Obligations.DcInitCompletes : Prop :=
  ∀ (s : State) (k : Nat), s.dcu.state ≠ .faulted →
    BusOk s.env ((initFrames s).length + (tableFrames s).length) →
    k < s.cfg.busyMaxPolls → ReadyAt s.cfg s.env k →
      exec .dcInit s = .next
        (((sent (waited (sent (pulsed s) (initFrames s)) k) (tableFrames s)).setResult .ok).setDcu ⟨.idle, .none, false, false⟩)

/-- R171: `dc.lut` sends the table its operand names and records the choice. -/
def Obligations.DcLutCompletes : Prop :=
  ∀ (s : State) (sel : Word), Runs s (.dcLut sel) →
    BusOk s.env (opFrames s (.dcLut sel)).length →
      ∃ l, lutSelCode l = sel.toNat ∧
        exec (.dcLut sel) s = .next
          (((sent s (opFrames s (.dcLut sel))).setResult .ok).setDcu { s.dcu with activeLut := l })

/-- R172: `dc.clrf` fills the old and then the new image buffer and sets `baseline`. -/
def Obligations.DcClrfCompletes : Prop :=
  ∀ s : State, Runs s .dcClrf → BusOk s.env (opFrames s .dcClrf).length →
    exec .dcClrf s = .next
      (((sent s (opFrames s .dcClrf)).setResult .ok).setDcu { s.dcu with baseline := true })

/-- R173, R68: `dc.update` sends `M[addr ..+ len]` unchanged and sets `frame_loaded`. -/
def Obligations.DcUpdateCompletes : Prop :=
  ∀ (s : State) (addr len : Word), Runs s (.dcUpdate addr len) →
    BusOk s.env (opFrames s (.dcUpdate addr len)).length →
      exec (.dcUpdate addr len) s = .next
        (((sent s (opFrames s (.dcUpdate addr len))).setResult .ok).setDcu { s.dcu with frameLoaded := true })

/-- R174, R178, R179: on every window that meets the numbers of R178, `dc.partial` sends the window sequence and then the bytes of the window. -/
def Obligations.DcPartialCompletes : Prop :=
  ∀ (s : State) (addr len x y w h : Word), Runs s (.dcPartial addr len x y w h) →
    BusOk s.env (opFrames s (.dcPartial addr len x y w h)).length →
      exec (.dcPartial addr len x y w h) s = .next
        (((sent s (opFrames s (.dcPartial addr len x y w h))).setResult .ok).setDcu { s.dcu with frameLoaded := true })

/-- R175, R146: `dc.display` sends the refresh sequence, waits for the panel and returns to `Idle`. -/
def Obligations.DcDisplayCompletes : Prop :=
  ∀ (s : State) (k : Nat), Runs s .dcDisplay → BusOk s.env (opFrames s .dcDisplay).length →
    k < s.cfg.busyMaxPolls → ReadyAt s.cfg s.env k →
      exec .dcDisplay s = .next
        (((waited (sent s (opFrames s .dcDisplay)) k).setResult .ok).setDcu s.dcu)

/-- R176: `dc.sleep` sends the sleep sequence and ends in `Sleeping`. -/
def Obligations.DcSleepCompletes : Prop :=
  ∀ s : State, Runs s .dcSleep → BusOk s.env (opFrames s .dcSleep).length →
    exec .dcSleep s = .next
      (((sent s (opFrames s .dcSleep)).setResult .ok).setDcu { s.dcu with state := .sleeping })

/-! ### Controller unit: device failures -/

/-- R203: `dc.init` on a panel that never becomes ready, with the effect of R221; no other operation ends
with `InitTimeout`. -/
def Obligations.DcInitTimesOut : Prop :=
  (∀ s : State, s.dcu.state ≠ .faulted → BusOk s.env (initFrames s).length →
    NeverReady s.cfg s.env →
      exec .dcInit s = .next
        (((timedOut (sent (pulsed s) (initFrames s))).setResult .initTimeout).setDcu ⟨.faulted, .none, false, false⟩)) ∧
  ∀ (i : Instr) (s t : State), exec i s = .next t → t.result = .initTimeout → i = .dcInit

/-- R202: `dc.init` stops at its first failing bus write, in the initialisation sequence or in the
default table, with the effect of R221: chip-select left active (R149), the flags cleared; no other
operation ends with `InitBusFault`. -/
def Obligations.DcInitBusFaults : Prop :=
  (∀ (s : State) (k j : Nat) (f : Frame), s.dcu.state ≠ .faulted →
    (BusFailsAt s.env k → (initFrames s)[k]? = some f →
      exec .dcInit s = .next
        (((sentUpTo (pulsed s) (initFrames s) k f).setResult .initBusFault).setDcu ⟨.faulted, .none, false, false⟩)) ∧
    (BusFailsAt s.env ((initFrames s).length + k) → (tableFrames s)[k]? = some f →
      j < s.cfg.busyMaxPolls → ReadyAt s.cfg s.env j →
      exec .dcInit s = .next
        (((sentUpTo (waited (sent (pulsed s) (initFrames s)) j) (tableFrames s) k f).setResult .initBusFault).setDcu ⟨.faulted, .none, false, false⟩))) ∧
  ∀ (i : Instr) (s t : State), exec i s = .next t → t.result = .initBusFault → i = .dcInit

/-- R204, R149, R221: each of the six other controller operations stops at its first failing bus write:
`CmdBusFault`, the controller faulted, no register written after that point, chip-select left
active. -/
def Obligations.CommandBusFaults : Prop :=
  ∀ (i : Instr) (s : State) (k : Nat) (f : Frame), Runs s i →
    BusFailsAt s.env k → (opFrames s i)[k]? = some f →
      exec i s = .next
        (((sentUpTo s (opFrames s i) k f).setResult .cmdBusFault).setDcu { s.dcu with state := .faulted })

/-- R208: `dc.display` on a panel that never becomes ready ends with `Timeout` after the bound, with the
effect of R221; no other operation does. -/
def Obligations.DcDisplayTimesOut : Prop :=
  (∀ s : State, Runs s .dcDisplay → BusOk s.env (opFrames s .dcDisplay).length →
    NeverReady s.cfg s.env →
      exec .dcDisplay s = .next
        (((timedOut (sent s (opFrames s .dcDisplay))).setResult .timeout).setDcu { s.dcu with state := .faulted })) ∧
  ∀ (i : Instr) (s t : State), exec i s = .next t → t.result = .timeout → i = .dcDisplay

/-! ### Checks before any event -/

/-- R207: a faulted controller answers `DeviceFaulted` to every operation, whatever its operands, and
changes nothing but RESULT; a framebuffer operation never answers it. -/
def Obligations.FaultedControllerRefusesAll : Prop :=
  ∀ (i : Instr) (s : State),
    (isDc i = true → s.dcu.state = .faulted →
      exec i s = .next { s with result := .deviceFaulted }) ∧
    (isFb i = true → ∀ t, exec i s = .next t → t.result ≠ .deviceFaulted)

/-- R211, R181: an operation in a state that does not let it run ends with `InvalidState` and changes
nothing but RESULT, whatever its operands. -/
def Obligations.WrongStateIsRefused : Prop :=
  ∀ (i : Instr) (s : State),
    (isDc i = true → i ≠ .dcInit → s.dcu.state ≠ .faulted → s.dcu.state ≠ .idle →
      exec i s = .next { s with result := .invalidState }) ∧
    (s.dcu.state = .idle → s.dcu.frameLoaded = false →
      exec .dcDisplay s = .next { s with result := .invalidState }) ∧
    (isFb i = true → (∀ w h b l, i ≠ .fbNew w h b l) → s.fb.valid = false →
      exec i s = .next { s with result := .invalidState })

/-- R220 steps 3 to 5, R173, R174, R182: the operand, size and window checks of an idle controller in
their order, each leaving everything but RESULT alone; `InvalidWindow` is the answer to exactly the
windows that R178 calls invalid. -/
def Obligations.OperandChecksInOrder : Prop :=
  ∀ (s : State) (sel addr len x y w h : Word), s.dcu.state = .idle →
    (2 < sel.toNat → exec (.dcLut sel) s = .next { s with result := .illegalOperation }) ∧
    (s.cfg.memBytes < addr.toNat + len.toNat →
      exec (.dcUpdate addr len) s = .next { s with result := .illegalOperation } ∧
      exec (.dcPartial addr len x y w h) s = .next { s with result := .illegalOperation }) ∧
    (addr.toNat + len.toNat ≤ s.cfg.memBytes → len.toNat ≠ frameBytes s.cfg →
      exec (.dcUpdate addr len) s = .next { s with result := .sizeMismatch } ∧
      exec (.dcPartial addr len x y w h) s = .next { s with result := .sizeMismatch }) ∧
    (addr.toNat + len.toNat ≤ s.cfg.memBytes → len.toNat = frameBytes s.cfg →
      (exec (.dcPartial addr len x y w h) s = .next { s with result := .invalidWindow } ↔
        w.toNat = 0 ∨ h.toNat = 0 ∨ s.cfg.devWidth < x.toNat + w.toNat ∨
        s.cfg.devHeight < y.toNat + h.toNat ∨ w.toNat % s.cfg.granX ≠ 0 ∨
        h.toNat % s.cfg.granY ≠ 0))

/-! ### Rules about every operation -/

/-- R222: a caller error or refusal changes RESULT and nothing else: no register, latch, byte of `M`,
event or answer of the environment. -/
def Obligations.CallerErrorsChangeOnlyResult : Prop :=
  ∀ (i : Instr) (s t : State), exec i s = .next t →
    t.result = .sizeMismatch ∨ t.result = .invalidWindow ∨ t.result = .invalidState ∨
      t.result = .illegalOperation ∨ t.result = .deviceFaulted →
    t = s.setResult t.result

/-- R202, R203, R204, R208, R221: a device failure leaves the controller faulted, and each of the four
codes comes from the operations the rules name; every other code of R200 leaves `dc_state` to the
operation's own effect, and no operation ends with `NoResult`. -/
def Obligations.DeviceFailuresFaultTheController : Prop :=
  ∀ (i : Instr) (s t : State), exec i s = .next t →
    (isDeviceFailure t.result = true → t.dcu.state = .faulted ∧ s.dcu.state ≠ .faulted) ∧
    (t.result = .initBusFault ∨ t.result = .initTimeout → i = .dcInit) ∧
    (t.result = .timeout → i = .dcDisplay) ∧
    (t.result = .cmdBusFault → isDc i = true ∧ i ≠ .dcInit) ∧
    t.result ≠ .noResult

/-- R180: the transitions of `dc_state` over one operation. -/
def Obligations.ControllerStateTransitions : Prop :=
  ∀ (i : Instr) (s t : State), exec i s = .next t →
    t.dcu.state = s.dcu.state ∨
    (i = .dcInit ∧ s.dcu.state ≠ .faulted ∧ t.dcu.state = .idle ∧ t.result = .ok) ∨
    (i = .dcSleep ∧ s.dcu.state = .idle ∧ t.dcu.state = .sleeping ∧ t.result = .ok) ∨
    (isDc i = true ∧ (s.dcu.state = .idle ∨ (i = .dcInit ∧ s.dcu.state ≠ .faulted)) ∧
      t.dcu.state = .faulted ∧ isDeviceFailure t.result = true)

/-- R30, R31, R32: `frame_loaded`, `baseline` and `active_lut` after any operation: cleared when
`dc.init` begins, set by the operations the rules name when they end with `Ok`, else kept. -/
def Obligations.FlagsFollowTheOperations : Prop :=
  ∀ (i : Instr) (s t : State), exec i s = .next t →
    (i = .dcInit → s.dcu.state ≠ .faulted →
      t.dcu.frameLoaded = false ∧ t.dcu.baseline = false ∧ t.dcu.activeLut = .none) ∧
    (i ≠ .dcInit →
      (t.dcu.frameLoaded = true ↔ s.dcu.frameLoaded = true ∨ (t.result = .ok ∧
        ((∃ a l, i = .dcUpdate a l) ∨ ∃ a l x y w h, i = .dcPartial a l x y w h))) ∧
      (t.dcu.baseline = true ↔ s.dcu.baseline = true ∨ (t.result = .ok ∧ i = .dcClrf)) ∧
      (∀ sel, i = .dcLut sel → t.result = .ok → lutSelCode t.dcu.activeLut = sel.toNat) ∧
      (((∀ sel, i ≠ .dcLut sel) ∨ t.result ≠ .ok) → t.dcu.activeLut = s.dcu.activeLut))

/-- R23: RET0 and RET1 are written only by `fb.get` (RET0) and `fb.bytes` (both), when they end with
`Ok`; the host's own moves leave them alone; both are 0 after reset. -/
def Obligations.ReturnRegistersHaveTwoWriters : Prop :=
  (∀ (i : Instr) (s t : State), exec i s = .next t →
    (t.ret0 = s.ret0 ∨ (t.result = .ok ∧ ((∃ x y, i = .fbGet x y) ∨ i = .fbBytes))) ∧
    (t.ret1 = s.ret1 ∨ (t.result = .ok ∧ i = .fbBytes))) ∧
  (∀ (s t : State) (m : HostMove) (rest : List HostMove), s.host = m :: rest → m ≠ .go →
    step s = .next t →
      (m = .reset → t.ret0 = 0 ∧ t.ret1 = 0) ∧
      (m ≠ .reset → t.ret0 = s.ret0 ∧ t.ret1 = s.ret1)) ∧
  State.reset.ret0 = 0 ∧ State.reset.ret1 = 0

/-- R40: what no controller operation changes: OPW0 to OPW6, RET0, RET1, every framebuffer register, every
byte of `M`; the reset line is driven by `dc.init` alone. That the model's own fields for the parameters,
the host's moves and the count of block resets are kept is the model's choice (DESIGN CHOICE, log entries
2, 5 and 7). -/
def Obligations.ControllerFrame : Prop :=
  ∀ (i : Instr) (s t : State), isDc i = true → exec i s = .next t →
    DcFrame s t ∧ t.mem = s.mem ∧ (i ≠ .dcInit → t.lines.rst = s.lines.rst)

/-- D35, R37: a controller operation neither reads nor writes a framebuffer register: with other values
in them it does the same. -/
def Obligations.ControllerIgnoresFramebuffer : Prop :=
  ∀ (i : Instr) (s : State) (fb : FbRegs), isDc i = true →
    exec i (s.setFb fb) = mapNext (·.setFb fb) (exec i s)

/-- R118: a framebuffer operation neither reads nor writes a controller register, a latch or the
environment's answers: with other values in them, `Faulted` included, it does the same. -/
def Obligations.FramebufferIgnoresController : Prop :=
  ∀ (i : Instr) (s : State) (d : DcRegs) (l : Lines) (v : Env), isFb i = true →
    exec i (((s.setDcu d).setLines l).setEnv v) =
      mapNext (fun t => ((t.setDcu d).setLines l).setEnv v) (exec i s)

/-- R147: only `dc.init` and `dc.display` sample the busy input. -/
def Obligations.OnlyInitAndDisplayWait : Prop :=
  ∀ (i : Instr) (s t : State), i ≠ .dcInit → i ≠ .dcDisplay → exec i s = .next t →
    t.env.busyAnswers = s.env.busyAnswers ∧ t.env.busyDraws = s.env.busyDraws

/-- R184: how many events a controller operation that ends with `Ok` emits; `n` counts 4 for a transfer
without data and 8 for one with data. `k` is the number of busy samples the operation took: the answers
of the busy input it used up, and the `Busy` events it appended. -/
def Obligations.EventCountsOfSuccess : Prop :=
  ∀ (i : Instr) (s t : State), s.cfg.Valid → exec i s = .next t → t.result = .ok →
    let n := fun ts : List Xfer => (ts.map fun x => if x.data = [] then 4 else 8).sum
    let emitted := fun c : Nat => t.history.length = s.history.length + c
    let sampled := fun k : Nat => t.env.busyDraws = s.env.busyDraws + k ∧
      busyCount t.history = busyCount s.history + k
    (i = .dcInit → ∃ k, 1 ≤ k ∧ k ≤ s.cfg.busyMaxPolls ∧ sampled k ∧
      emitted (4 + n s.cfg.pv.initSeq + (2 * k - 1) + if s.cfg.pv.lutDefault = [] then 4 else 8)) ∧
    (∀ sel, i = .dcLut sel → emitted (if tableOf s.cfg.pv sel.toNat = [] then 4 else 8)) ∧
    (i = .dcClrf → emitted 16) ∧
    (∀ a l, i = .dcUpdate a l → emitted 8) ∧
    (∀ a l x y w h, i = .dcPartial a l x y w h →
      emitted (n (windowSeq s.cfg.pv ⟨x.toNat, y.toNat, w.toNat, h.toNat⟩) + 8)) ∧
    (i = .dcDisplay → ∃ k, 1 ≤ k ∧ k ≤ s.cfg.busyMaxPolls ∧ sampled k ∧
      emitted (n s.cfg.pv.refreshSeq + (2 * k - 1))) ∧
    (i = .dcSleep → emitted (n s.cfg.pv.sleepSeq))

/-- R179: a `dc.partial` that ends with `Ok` has last sent `h * (w / 8)` bytes, those of the window
row by row, each as it stands in `M`. -/
def Obligations.PartialSendsTheWindowBytes : Prop :=
  ∀ (s t : State) (addr len x y w h : Word), s.cfg.Valid →
    exec (.dcPartial addr len x y w h) s = .next t → t.result = .ok →
      ∃ before bytes, t.history = before ++ frameEvents s.cfg ⟨s.cfg.dcCmdLevel.not, bytes⟩ ∧
        bytes.length = h.toNat * (w.toNat / 8) ∧
        ∀ r < h.toNat, ∀ j < w.toNat / 8,
          bytes[r * (w.toNat / 8) + j]? =
            s.load (addr.toNat + (y.toNat + r) * devStride s.cfg + x.toNat / 8 + j)

/-! ### The whole machine -/

/-- R10, R70: a step only appends to the history. And it never changes the parameters: R20 says that `P`
is no state, and that it is a field which every step keeps is the model's choice (DESIGN CHOICE, log
entry 2). -/
def Obligations.HistoryOnlyGrows : Prop :=
  ∀ s t : State, step s = .next t →
    (∃ events, t.history = s.history ++ events) ∧ t.cfg = s.cfg

/-- R180, R219, R223, R244: `Faulted` is left only by block reset; `Sleeping` only by block reset or by
a GO on `dc.init`. -/
def Obligations.WhatLeavesFaultedAndSleeping : Prop :=
  ∀ s t : State, step s = .next t →
    (s.dcu.state = .faulted → t.dcu.state ≠ .faulted → ∃ rest, s.host = .reset :: rest) ∧
    (s.dcu.state = .sleeping → t.dcu.state ≠ .sleeping →
      (∃ rest, s.host = .reset :: rest) ∨
      ((∃ rest, s.host = .go :: rest) ∧ decode s.opw = .ok .dcInit))

/-- R183: on a faulted controller no run without a block reset, whatever the host does in it, emits an
event, moves a latch, adds to the bus write counter or leaves `Faulted`. -/
def Obligations.FaultedRunsAreSilent : Prop :=
  ∀ (n : Nat) (s t : State), s.dcu.state = .faulted → (∀ m ∈ s.host, m ≠ HostMove.reset) →
    Host.Core.run Sys2Proof.core n s = .next t →
      t.dcu = s.dcu ∧ t.history = s.history ∧ t.lines = s.lines ∧
        busCount t.history = busCount s.history

/-- The invariant holds at power-on. The parameters there are the implementation's own, of which only
R6 to R8 are known (log entry 2). -/
def Obligations.PowerOnMeetsTheInvariant : Prop := Inv State.reset

/-- R27, R29, R10, R151 and the canonical form of memory: every step keeps the invariant. -/
def Obligations.EveryStepKeepsTheInvariant : Prop :=
  ∀ s t : State, Inv s → step s = .next t → Inv t

/-- R63, R238: from a state that meets the invariant every step answers a next state: no access fault
and no refusal, whatever the host does and whatever the environment answers. -/
def Obligations.NoStepStops : Prop := ∀ s : State, Inv s → ∃ t, step s = .next t
end

