-- ==== Sys2Proof/Laws/State.lean ====
section
/-! SUPPORT. One lemma per field per update of the state, so that no later proof unfolds a record update. -/

namespace Sys2Proof.Machine

/-! ### `setResult` -/

@[simp] theorem State.setResult_cfg (s : State) (c : ResultCode) : (s.setResult c).cfg = s.cfg := rfl
@[simp] theorem State.setResult_opw (s : State) (c : ResultCode) : (s.setResult c).opw = s.opw := rfl
@[simp] theorem State.setResult_result (s : State) (c : ResultCode) : (s.setResult c).result = c := rfl
@[simp] theorem State.setResult_ret0 (s : State) (c : ResultCode) : (s.setResult c).ret0 = s.ret0 := rfl
@[simp] theorem State.setResult_ret1 (s : State) (c : ResultCode) : (s.setResult c).ret1 = s.ret1 := rfl
@[simp] theorem State.setResult_fb (s : State) (c : ResultCode) : (s.setResult c).fb = s.fb := rfl
@[simp] theorem State.setResult_dcu (s : State) (c : ResultCode) : (s.setResult c).dcu = s.dcu := rfl
@[simp] theorem State.setResult_lines (s : State) (c : ResultCode) : (s.setResult c).lines = s.lines := rfl
@[simp] theorem State.setResult_mem (s : State) (c : ResultCode) : (s.setResult c).mem = s.mem := rfl
@[simp] theorem State.setResult_history (s : State) (c : ResultCode) : (s.setResult c).history = s.history := rfl
@[simp] theorem State.setResult_host (s : State) (c : ResultCode) : (s.setResult c).host = s.host := rfl
@[simp] theorem State.setResult_env (s : State) (c : ResultCode) : (s.setResult c).env = s.env := rfl

/-! ### `setRet0` -/

@[simp] theorem State.setRet0_cfg (s : State) (v : Word) : (s.setRet0 v).cfg = s.cfg := rfl
@[simp] theorem State.setRet0_opw (s : State) (v : Word) : (s.setRet0 v).opw = s.opw := rfl
@[simp] theorem State.setRet0_result (s : State) (v : Word) : (s.setRet0 v).result = s.result := rfl
@[simp] theorem State.setRet0_ret0 (s : State) (v : Word) : (s.setRet0 v).ret0 = v := rfl
@[simp] theorem State.setRet0_ret1 (s : State) (v : Word) : (s.setRet0 v).ret1 = s.ret1 := rfl
@[simp] theorem State.setRet0_fb (s : State) (v : Word) : (s.setRet0 v).fb = s.fb := rfl
@[simp] theorem State.setRet0_dcu (s : State) (v : Word) : (s.setRet0 v).dcu = s.dcu := rfl
@[simp] theorem State.setRet0_lines (s : State) (v : Word) : (s.setRet0 v).lines = s.lines := rfl
@[simp] theorem State.setRet0_mem (s : State) (v : Word) : (s.setRet0 v).mem = s.mem := rfl
@[simp] theorem State.setRet0_history (s : State) (v : Word) : (s.setRet0 v).history = s.history := rfl
@[simp] theorem State.setRet0_host (s : State) (v : Word) : (s.setRet0 v).host = s.host := rfl
@[simp] theorem State.setRet0_env (s : State) (v : Word) : (s.setRet0 v).env = s.env := rfl

/-! ### `setRet1` -/

@[simp] theorem State.setRet1_cfg (s : State) (v : Word) : (s.setRet1 v).cfg = s.cfg := rfl
@[simp] theorem State.setRet1_opw (s : State) (v : Word) : (s.setRet1 v).opw = s.opw := rfl
@[simp] theorem State.setRet1_result (s : State) (v : Word) : (s.setRet1 v).result = s.result := rfl
@[simp] theorem State.setRet1_ret0 (s : State) (v : Word) : (s.setRet1 v).ret0 = s.ret0 := rfl
@[simp] theorem State.setRet1_ret1 (s : State) (v : Word) : (s.setRet1 v).ret1 = v := rfl
@[simp] theorem State.setRet1_fb (s : State) (v : Word) : (s.setRet1 v).fb = s.fb := rfl
@[simp] theorem State.setRet1_dcu (s : State) (v : Word) : (s.setRet1 v).dcu = s.dcu := rfl
@[simp] theorem State.setRet1_lines (s : State) (v : Word) : (s.setRet1 v).lines = s.lines := rfl
@[simp] theorem State.setRet1_mem (s : State) (v : Word) : (s.setRet1 v).mem = s.mem := rfl
@[simp] theorem State.setRet1_history (s : State) (v : Word) : (s.setRet1 v).history = s.history := rfl
@[simp] theorem State.setRet1_host (s : State) (v : Word) : (s.setRet1 v).host = s.host := rfl
@[simp] theorem State.setRet1_env (s : State) (v : Word) : (s.setRet1 v).env = s.env := rfl

/-! ### `setFb` -/

@[simp] theorem State.setFb_cfg (s : State) (f : FbRegs) : (s.setFb f).cfg = s.cfg := rfl
@[simp] theorem State.setFb_opw (s : State) (f : FbRegs) : (s.setFb f).opw = s.opw := rfl
@[simp] theorem State.setFb_result (s : State) (f : FbRegs) : (s.setFb f).result = s.result := rfl
@[simp] theorem State.setFb_ret0 (s : State) (f : FbRegs) : (s.setFb f).ret0 = s.ret0 := rfl
@[simp] theorem State.setFb_ret1 (s : State) (f : FbRegs) : (s.setFb f).ret1 = s.ret1 := rfl
@[simp] theorem State.setFb_fb (s : State) (f : FbRegs) : (s.setFb f).fb = f := rfl
@[simp] theorem State.setFb_dcu (s : State) (f : FbRegs) : (s.setFb f).dcu = s.dcu := rfl
@[simp] theorem State.setFb_lines (s : State) (f : FbRegs) : (s.setFb f).lines = s.lines := rfl
@[simp] theorem State.setFb_mem (s : State) (f : FbRegs) : (s.setFb f).mem = s.mem := rfl
@[simp] theorem State.setFb_history (s : State) (f : FbRegs) : (s.setFb f).history = s.history := rfl
@[simp] theorem State.setFb_host (s : State) (f : FbRegs) : (s.setFb f).host = s.host := rfl
@[simp] theorem State.setFb_env (s : State) (f : FbRegs) : (s.setFb f).env = s.env := rfl

/-! ### `setDcu` -/

@[simp] theorem State.setDcu_cfg (s : State) (d : DcRegs) : (s.setDcu d).cfg = s.cfg := rfl
@[simp] theorem State.setDcu_opw (s : State) (d : DcRegs) : (s.setDcu d).opw = s.opw := rfl
@[simp] theorem State.setDcu_result (s : State) (d : DcRegs) : (s.setDcu d).result = s.result := rfl
@[simp] theorem State.setDcu_ret0 (s : State) (d : DcRegs) : (s.setDcu d).ret0 = s.ret0 := rfl
@[simp] theorem State.setDcu_ret1 (s : State) (d : DcRegs) : (s.setDcu d).ret1 = s.ret1 := rfl
@[simp] theorem State.setDcu_fb (s : State) (d : DcRegs) : (s.setDcu d).fb = s.fb := rfl
@[simp] theorem State.setDcu_dcu (s : State) (d : DcRegs) : (s.setDcu d).dcu = d := rfl
@[simp] theorem State.setDcu_lines (s : State) (d : DcRegs) : (s.setDcu d).lines = s.lines := rfl
@[simp] theorem State.setDcu_mem (s : State) (d : DcRegs) : (s.setDcu d).mem = s.mem := rfl
@[simp] theorem State.setDcu_history (s : State) (d : DcRegs) : (s.setDcu d).history = s.history := rfl
@[simp] theorem State.setDcu_host (s : State) (d : DcRegs) : (s.setDcu d).host = s.host := rfl
@[simp] theorem State.setDcu_env (s : State) (d : DcRegs) : (s.setDcu d).env = s.env := rfl

/-! ### `setDcState` -/

@[simp] theorem State.setDcState_cfg (s : State) (x : DcState) : (s.setDcState x).cfg = s.cfg := rfl
@[simp] theorem State.setDcState_opw (s : State) (x : DcState) : (s.setDcState x).opw = s.opw := rfl
@[simp] theorem State.setDcState_result (s : State) (x : DcState) : (s.setDcState x).result = s.result := rfl
@[simp] theorem State.setDcState_ret0 (s : State) (x : DcState) : (s.setDcState x).ret0 = s.ret0 := rfl
@[simp] theorem State.setDcState_ret1 (s : State) (x : DcState) : (s.setDcState x).ret1 = s.ret1 := rfl
@[simp] theorem State.setDcState_fb (s : State) (x : DcState) : (s.setDcState x).fb = s.fb := rfl
@[simp] theorem State.setDcState_dcu (s : State) (x : DcState) : (s.setDcState x).dcu = { s.dcu with state := x } := rfl
@[simp] theorem State.setDcState_lines (s : State) (x : DcState) : (s.setDcState x).lines = s.lines := rfl
@[simp] theorem State.setDcState_mem (s : State) (x : DcState) : (s.setDcState x).mem = s.mem := rfl
@[simp] theorem State.setDcState_history (s : State) (x : DcState) : (s.setDcState x).history = s.history := rfl
@[simp] theorem State.setDcState_host (s : State) (x : DcState) : (s.setDcState x).host = s.host := rfl
@[simp] theorem State.setDcState_env (s : State) (x : DcState) : (s.setDcState x).env = s.env := rfl

/-! ### `setFrameLoaded` -/

@[simp] theorem State.setFrameLoaded_cfg (s : State) (b : Bool) : (s.setFrameLoaded b).cfg = s.cfg := rfl
@[simp] theorem State.setFrameLoaded_opw (s : State) (b : Bool) : (s.setFrameLoaded b).opw = s.opw := rfl
@[simp] theorem State.setFrameLoaded_result (s : State) (b : Bool) : (s.setFrameLoaded b).result = s.result := rfl
@[simp] theorem State.setFrameLoaded_ret0 (s : State) (b : Bool) : (s.setFrameLoaded b).ret0 = s.ret0 := rfl
@[simp] theorem State.setFrameLoaded_ret1 (s : State) (b : Bool) : (s.setFrameLoaded b).ret1 = s.ret1 := rfl
@[simp] theorem State.setFrameLoaded_fb (s : State) (b : Bool) : (s.setFrameLoaded b).fb = s.fb := rfl
@[simp] theorem State.setFrameLoaded_dcu (s : State) (b : Bool) : (s.setFrameLoaded b).dcu = { s.dcu with frameLoaded := b } := rfl
@[simp] theorem State.setFrameLoaded_lines (s : State) (b : Bool) : (s.setFrameLoaded b).lines = s.lines := rfl
@[simp] theorem State.setFrameLoaded_mem (s : State) (b : Bool) : (s.setFrameLoaded b).mem = s.mem := rfl
@[simp] theorem State.setFrameLoaded_history (s : State) (b : Bool) : (s.setFrameLoaded b).history = s.history := rfl
@[simp] theorem State.setFrameLoaded_host (s : State) (b : Bool) : (s.setFrameLoaded b).host = s.host := rfl
@[simp] theorem State.setFrameLoaded_env (s : State) (b : Bool) : (s.setFrameLoaded b).env = s.env := rfl

/-! ### `setBaseline` -/

@[simp] theorem State.setBaseline_cfg (s : State) (b : Bool) : (s.setBaseline b).cfg = s.cfg := rfl
@[simp] theorem State.setBaseline_opw (s : State) (b : Bool) : (s.setBaseline b).opw = s.opw := rfl
@[simp] theorem State.setBaseline_result (s : State) (b : Bool) : (s.setBaseline b).result = s.result := rfl
@[simp] theorem State.setBaseline_ret0 (s : State) (b : Bool) : (s.setBaseline b).ret0 = s.ret0 := rfl
@[simp] theorem State.setBaseline_ret1 (s : State) (b : Bool) : (s.setBaseline b).ret1 = s.ret1 := rfl
@[simp] theorem State.setBaseline_fb (s : State) (b : Bool) : (s.setBaseline b).fb = s.fb := rfl
@[simp] theorem State.setBaseline_dcu (s : State) (b : Bool) : (s.setBaseline b).dcu = { s.dcu with baseline := b } := rfl
@[simp] theorem State.setBaseline_lines (s : State) (b : Bool) : (s.setBaseline b).lines = s.lines := rfl
@[simp] theorem State.setBaseline_mem (s : State) (b : Bool) : (s.setBaseline b).mem = s.mem := rfl
@[simp] theorem State.setBaseline_history (s : State) (b : Bool) : (s.setBaseline b).history = s.history := rfl
@[simp] theorem State.setBaseline_host (s : State) (b : Bool) : (s.setBaseline b).host = s.host := rfl
@[simp] theorem State.setBaseline_env (s : State) (b : Bool) : (s.setBaseline b).env = s.env := rfl

/-! ### `setActiveLut` -/

@[simp] theorem State.setActiveLut_cfg (s : State) (l : LutSel) : (s.setActiveLut l).cfg = s.cfg := rfl
@[simp] theorem State.setActiveLut_opw (s : State) (l : LutSel) : (s.setActiveLut l).opw = s.opw := rfl
@[simp] theorem State.setActiveLut_result (s : State) (l : LutSel) : (s.setActiveLut l).result = s.result := rfl
@[simp] theorem State.setActiveLut_ret0 (s : State) (l : LutSel) : (s.setActiveLut l).ret0 = s.ret0 := rfl
@[simp] theorem State.setActiveLut_ret1 (s : State) (l : LutSel) : (s.setActiveLut l).ret1 = s.ret1 := rfl
@[simp] theorem State.setActiveLut_fb (s : State) (l : LutSel) : (s.setActiveLut l).fb = s.fb := rfl
@[simp] theorem State.setActiveLut_dcu (s : State) (l : LutSel) : (s.setActiveLut l).dcu = { s.dcu with activeLut := l } := rfl
@[simp] theorem State.setActiveLut_lines (s : State) (l : LutSel) : (s.setActiveLut l).lines = s.lines := rfl
@[simp] theorem State.setActiveLut_mem (s : State) (l : LutSel) : (s.setActiveLut l).mem = s.mem := rfl
@[simp] theorem State.setActiveLut_history (s : State) (l : LutSel) : (s.setActiveLut l).history = s.history := rfl
@[simp] theorem State.setActiveLut_host (s : State) (l : LutSel) : (s.setActiveLut l).host = s.host := rfl
@[simp] theorem State.setActiveLut_env (s : State) (l : LutSel) : (s.setActiveLut l).env = s.env := rfl

/-! ### `setLines` -/

@[simp] theorem State.setLines_cfg (s : State) (l : Lines) : (s.setLines l).cfg = s.cfg := rfl
@[simp] theorem State.setLines_opw (s : State) (l : Lines) : (s.setLines l).opw = s.opw := rfl
@[simp] theorem State.setLines_result (s : State) (l : Lines) : (s.setLines l).result = s.result := rfl
@[simp] theorem State.setLines_ret0 (s : State) (l : Lines) : (s.setLines l).ret0 = s.ret0 := rfl
@[simp] theorem State.setLines_ret1 (s : State) (l : Lines) : (s.setLines l).ret1 = s.ret1 := rfl
@[simp] theorem State.setLines_fb (s : State) (l : Lines) : (s.setLines l).fb = s.fb := rfl
@[simp] theorem State.setLines_dcu (s : State) (l : Lines) : (s.setLines l).dcu = s.dcu := rfl
@[simp] theorem State.setLines_lines (s : State) (l : Lines) : (s.setLines l).lines = l := rfl
@[simp] theorem State.setLines_mem (s : State) (l : Lines) : (s.setLines l).mem = s.mem := rfl
@[simp] theorem State.setLines_history (s : State) (l : Lines) : (s.setLines l).history = s.history := rfl
@[simp] theorem State.setLines_host (s : State) (l : Lines) : (s.setLines l).host = s.host := rfl
@[simp] theorem State.setLines_env (s : State) (l : Lines) : (s.setLines l).env = s.env := rfl

/-! ### `setOpw` -/

@[simp] theorem State.setOpw_cfg (s : State) (d : Descriptor) : (s.setOpw d).cfg = s.cfg := rfl
@[simp] theorem State.setOpw_opw (s : State) (d : Descriptor) : (s.setOpw d).opw = d := rfl
@[simp] theorem State.setOpw_result (s : State) (d : Descriptor) : (s.setOpw d).result = s.result := rfl
@[simp] theorem State.setOpw_ret0 (s : State) (d : Descriptor) : (s.setOpw d).ret0 = s.ret0 := rfl
@[simp] theorem State.setOpw_ret1 (s : State) (d : Descriptor) : (s.setOpw d).ret1 = s.ret1 := rfl
@[simp] theorem State.setOpw_fb (s : State) (d : Descriptor) : (s.setOpw d).fb = s.fb := rfl
@[simp] theorem State.setOpw_dcu (s : State) (d : Descriptor) : (s.setOpw d).dcu = s.dcu := rfl
@[simp] theorem State.setOpw_lines (s : State) (d : Descriptor) : (s.setOpw d).lines = s.lines := rfl
@[simp] theorem State.setOpw_mem (s : State) (d : Descriptor) : (s.setOpw d).mem = s.mem := rfl
@[simp] theorem State.setOpw_history (s : State) (d : Descriptor) : (s.setOpw d).history = s.history := rfl
@[simp] theorem State.setOpw_host (s : State) (d : Descriptor) : (s.setOpw d).host = s.host := rfl
@[simp] theorem State.setOpw_env (s : State) (d : Descriptor) : (s.setOpw d).env = s.env := rfl

/-! ### `setMem` -/

@[simp] theorem State.setMem_cfg (s : State) (m : Memory) : (s.setMem m).cfg = s.cfg := rfl
@[simp] theorem State.setMem_opw (s : State) (m : Memory) : (s.setMem m).opw = s.opw := rfl
@[simp] theorem State.setMem_result (s : State) (m : Memory) : (s.setMem m).result = s.result := rfl
@[simp] theorem State.setMem_ret0 (s : State) (m : Memory) : (s.setMem m).ret0 = s.ret0 := rfl
@[simp] theorem State.setMem_ret1 (s : State) (m : Memory) : (s.setMem m).ret1 = s.ret1 := rfl
@[simp] theorem State.setMem_fb (s : State) (m : Memory) : (s.setMem m).fb = s.fb := rfl
@[simp] theorem State.setMem_dcu (s : State) (m : Memory) : (s.setMem m).dcu = s.dcu := rfl
@[simp] theorem State.setMem_lines (s : State) (m : Memory) : (s.setMem m).lines = s.lines := rfl
@[simp] theorem State.setMem_mem (s : State) (m : Memory) : (s.setMem m).mem = m := rfl
@[simp] theorem State.setMem_history (s : State) (m : Memory) : (s.setMem m).history = s.history := rfl
@[simp] theorem State.setMem_host (s : State) (m : Memory) : (s.setMem m).host = s.host := rfl
@[simp] theorem State.setMem_env (s : State) (m : Memory) : (s.setMem m).env = s.env := rfl

/-! ### `emit` -/

@[simp] theorem State.emit_cfg (s : State) (e : Event) : (s.emit e).cfg = s.cfg := rfl
@[simp] theorem State.emit_opw (s : State) (e : Event) : (s.emit e).opw = s.opw := rfl
@[simp] theorem State.emit_result (s : State) (e : Event) : (s.emit e).result = s.result := rfl
@[simp] theorem State.emit_ret0 (s : State) (e : Event) : (s.emit e).ret0 = s.ret0 := rfl
@[simp] theorem State.emit_ret1 (s : State) (e : Event) : (s.emit e).ret1 = s.ret1 := rfl
@[simp] theorem State.emit_fb (s : State) (e : Event) : (s.emit e).fb = s.fb := rfl
@[simp] theorem State.emit_dcu (s : State) (e : Event) : (s.emit e).dcu = s.dcu := rfl
@[simp] theorem State.emit_lines (s : State) (e : Event) : (s.emit e).lines = s.lines := rfl
@[simp] theorem State.emit_mem (s : State) (e : Event) : (s.emit e).mem = s.mem := rfl
@[simp] theorem State.emit_history (s : State) (e : Event) : (s.emit e).history = s.history ++ [e] := rfl
@[simp] theorem State.emit_host (s : State) (e : Event) : (s.emit e).host = s.host := rfl
@[simp] theorem State.emit_env (s : State) (e : Event) : (s.emit e).env = s.env := rfl

/-! ### `setEnv` -/

@[simp] theorem State.setEnv_cfg (s : State) (v : Env) : (s.setEnv v).cfg = s.cfg := rfl
@[simp] theorem State.setEnv_opw (s : State) (v : Env) : (s.setEnv v).opw = s.opw := rfl
@[simp] theorem State.setEnv_result (s : State) (v : Env) : (s.setEnv v).result = s.result := rfl
@[simp] theorem State.setEnv_ret0 (s : State) (v : Env) : (s.setEnv v).ret0 = s.ret0 := rfl
@[simp] theorem State.setEnv_ret1 (s : State) (v : Env) : (s.setEnv v).ret1 = s.ret1 := rfl
@[simp] theorem State.setEnv_fb (s : State) (v : Env) : (s.setEnv v).fb = s.fb := rfl
@[simp] theorem State.setEnv_dcu (s : State) (v : Env) : (s.setEnv v).dcu = s.dcu := rfl
@[simp] theorem State.setEnv_lines (s : State) (v : Env) : (s.setEnv v).lines = s.lines := rfl
@[simp] theorem State.setEnv_mem (s : State) (v : Env) : (s.setEnv v).mem = s.mem := rfl
@[simp] theorem State.setEnv_history (s : State) (v : Env) : (s.setEnv v).history = s.history := rfl
@[simp] theorem State.setEnv_host (s : State) (v : Env) : (s.setEnv v).host = s.host := rfl
@[simp] theorem State.setEnv_env (s : State) (v : Env) : (s.setEnv v).env = v := rfl

/-! ### `setHost` -/

@[simp] theorem State.setHost_cfg (s : State) (h : List HostMove) : (s.setHost h).cfg = s.cfg := rfl
@[simp] theorem State.setHost_opw (s : State) (h : List HostMove) : (s.setHost h).opw = s.opw := rfl
@[simp] theorem State.setHost_result (s : State) (h : List HostMove) : (s.setHost h).result = s.result := rfl
@[simp] theorem State.setHost_ret0 (s : State) (h : List HostMove) : (s.setHost h).ret0 = s.ret0 := rfl
@[simp] theorem State.setHost_ret1 (s : State) (h : List HostMove) : (s.setHost h).ret1 = s.ret1 := rfl
@[simp] theorem State.setHost_fb (s : State) (h : List HostMove) : (s.setHost h).fb = s.fb := rfl
@[simp] theorem State.setHost_dcu (s : State) (h : List HostMove) : (s.setHost h).dcu = s.dcu := rfl
@[simp] theorem State.setHost_lines (s : State) (h : List HostMove) : (s.setHost h).lines = s.lines := rfl
@[simp] theorem State.setHost_mem (s : State) (h : List HostMove) : (s.setHost h).mem = s.mem := rfl
@[simp] theorem State.setHost_history (s : State) (h : List HostMove) : (s.setHost h).history = s.history := rfl
@[simp] theorem State.setHost_host (s : State) (h : List HostMove) : (s.setHost h).host = h := rfl
@[simp] theorem State.setHost_env (s : State) (h : List HostMove) : (s.setHost h).env = s.env := rfl

/-! ### `Lines.set` -/

@[simp] theorem Lines.set_cs_cs (l : Lines) (v : Level) : (l.set .cs v).cs = v := rfl
@[simp] theorem Lines.set_cs_dc (l : Lines) (v : Level) : (l.set .cs v).dc = l.dc := rfl
@[simp] theorem Lines.set_cs_rst (l : Lines) (v : Level) : (l.set .cs v).rst = l.rst := rfl
@[simp] theorem Lines.set_dc_cs (l : Lines) (v : Level) : (l.set .dc v).cs = l.cs := rfl
@[simp] theorem Lines.set_dc_dc (l : Lines) (v : Level) : (l.set .dc v).dc = v := rfl
@[simp] theorem Lines.set_dc_rst (l : Lines) (v : Level) : (l.set .dc v).rst = l.rst := rfl
@[simp] theorem Lines.set_rst_cs (l : Lines) (v : Level) : (l.set .rst v).cs = l.cs := rfl
@[simp] theorem Lines.set_rst_dc (l : Lines) (v : Level) : (l.set .rst v).dc = l.dc := rfl
@[simp] theorem Lines.set_rst_rst (l : Lines) (v : Level) : (l.set .rst v).rst = v := rfl

/-! ### `done` and `blockReset` -/

@[simp] theorem done_cfg (s : State) : (done s).cfg = s.cfg := rfl
@[simp] theorem done_opw (s : State) : (done s).opw = s.opw := rfl
@[simp] theorem done_result (s : State) : (done s).result = .ok := rfl
@[simp] theorem done_ret0 (s : State) : (done s).ret0 = s.ret0 := rfl
@[simp] theorem done_ret1 (s : State) : (done s).ret1 = s.ret1 := rfl
@[simp] theorem done_fb (s : State) : (done s).fb = s.fb := rfl
@[simp] theorem done_dcu (s : State) : (done s).dcu = s.dcu := rfl
@[simp] theorem done_lines (s : State) : (done s).lines = s.lines := rfl
@[simp] theorem done_mem (s : State) : (done s).mem = s.mem := rfl
@[simp] theorem done_history (s : State) : (done s).history = s.history := rfl
@[simp] theorem done_host (s : State) : (done s).host = s.host := rfl
@[simp] theorem done_env (s : State) : (done s).env = s.env := rfl
@[simp] theorem blockReset_cfg (s : State) : (blockReset s).cfg = s.cfg := rfl
@[simp] theorem blockReset_result (s : State) : (blockReset s).result = .noResult := rfl
@[simp] theorem blockReset_ret0 (s : State) : (blockReset s).ret0 = 0 := rfl
@[simp] theorem blockReset_ret1 (s : State) : (blockReset s).ret1 = 0 := rfl
@[simp] theorem blockReset_fb (s : State) : (blockReset s).fb = ⟨false, 0, 0, .rotate0, 0, 0⟩ := rfl
@[simp] theorem blockReset_dcu (s : State) : (blockReset s).dcu = ⟨.uninit, .none, false, false⟩ := rfl
@[simp] theorem blockReset_lines (s : State) : (blockReset s).lines = ⟨s.cfg.csActive.not, s.cfg.dcCmdLevel.not, .high⟩ := rfl
@[simp] theorem blockReset_mem (s : State) : (blockReset s).mem = s.mem := rfl
@[simp] theorem blockReset_history (s : State) : (blockReset s).history = s.history ++ [.reset] := rfl
@[simp] theorem blockReset_host (s : State) : (blockReset s).host = s.host := rfl

/-! ### An update of a field replaces the update before it -/

@[simp] theorem State.setResult_setResult (s : State) (c d : ResultCode) :
    (s.setResult c).setResult d = s.setResult d := rfl
@[simp] theorem State.setDcu_setDcu (s : State) (c d : DcRegs) : (s.setDcu c).setDcu d = s.setDcu d := rfl
@[simp] theorem State.setMem_setMem (s : State) (c d : Memory) : (s.setMem c).setMem d = s.setMem d := rfl
@[simp] theorem State.setFb_setFb (s : State) (c d : FbRegs) : (s.setFb c).setFb d = s.setFb d := rfl

end Sys2Proof.Machine
end

