-- ==== Sys2Proof/Laws/Memory.lean ====
section
/-! SUPPORT. The laws of frame memory: read after write, the frame of a write, the canonical form kept
by every memory operation, and what the slice read and the fill of a region do. -/

namespace Sys2Proof.Machine

/-! ### Reading and writing one byte -/

theorem Memory.wfFrom_mono {lo lo' : Nat} {m : Memory} (h : lo ≤ lo')
    (hm : Memory.wfFrom lo' m = true) : Memory.wfFrom lo m = true := by
  cases m with
  | nil => rfl
  | cons c m =>
    simp only [Memory.wfFrom, Bool.and_eq_true, decide_eq_true_eq] at hm ⊢
    exact ⟨⟨le_trans h hm.1.1, hm.1.2⟩, hm.2⟩

/-- Below its first listed address a canonical memory reads as unlisted. -/
theorem Memory.read_below {lo a : Nat} {m : Memory} (hm : Memory.wfFrom lo m = true) (h : a < lo) :
    Memory.read m a = Memory.unlisted := by
  cases m with
  | nil => rfl
  | cons c m =>
    simp only [Memory.wfFrom, Bool.and_eq_true, decide_eq_true_eq] at hm
    simp [Memory.read, lt_of_lt_of_le h hm.1.1]

/-- Read after write: the same address gives the byte written, every other address what it gave. -/
theorem Memory.read_write {lo : Nat} {m : Memory} (hm : Memory.wfFrom lo m = true) (a b : Nat)
    (v : Byte) :
    Memory.read (Memory.write m a v) b = if b = a then v else Memory.read m b := by
  induction m generalizing lo with
  | nil =>
    by_cases hv : v = Memory.unlisted
    · simp [Memory.write, Memory.read, hv]
    · by_cases hb : b = a
      · simp [Memory.write, Memory.read, hv, hb]
      · simp [Memory.write, Memory.read, hv, hb]
  | cons c m ih =>
    obtain ⟨k, w⟩ := c
    have hc := hm
    simp only [Memory.wfFrom, Bool.and_eq_true, decide_eq_true_eq] at hm
    have ih := ih hm.2
    have hlow : ∀ x < k + 1, Memory.read m x = Memory.unlisted := fun x hx =>
      Memory.read_below hm.2 hx
    by_cases hlt : a < k
    · by_cases hv : v = Memory.unlisted
      · by_cases hb : b = a
        · subst hb; simp [Memory.write, Memory.read, hlt, hv]
        · simp [Memory.write, hlt, hv, hb]
      · by_cases hb : b = a
        · subst hb; simp [Memory.write, Memory.read, hlt, hv]
        · by_cases hba : b < a
          · simp [Memory.write, Memory.read, hlt, hv, hb, hba, lt_trans hba hlt]
          · simp [Memory.write, Memory.read, hlt, hv, hb, hba]
    · by_cases hk : a = k
      · subst hk
        by_cases hv : v = Memory.unlisted
        · by_cases hb : b = a
          · subst hb; simp [Memory.write, hv, hlow]
          · by_cases hba : b < a
            · simp [Memory.write, Memory.read, hv, hb, hba, hlow b (by omega)]
            · simp [Memory.write, Memory.read, hv, hb, hba]
        · by_cases hb : b = a
          · subst hb; simp [Memory.write, Memory.read, hv]
          · simp [Memory.write, Memory.read, hv, hb]
      · by_cases hbk : b < k
        · simp [Memory.write, Memory.read, hlt, hk, hbk, show b ≠ a by omega]
        · by_cases hb : b = k
          · subst hb; simp [Memory.write, Memory.read, hlt, hk, Ne.symm hk]
          · simp [Memory.write, Memory.read, hlt, hk, hbk, hb, ih]

/-- A write keeps the canonical form. -/
theorem Memory.write_wfFrom {lo : Nat} {m : Memory} (hm : Memory.wfFrom lo m = true) {a : Nat}
    (ha : lo ≤ a) (v : Byte) : Memory.wfFrom lo (Memory.write m a v) = true := by
  induction m generalizing lo with
  | nil =>
    by_cases hv : v = Memory.unlisted <;> simp [Memory.write, Memory.wfFrom, hv, ha]
  | cons c m ih =>
    obtain ⟨k, w⟩ := c
    have hc := hm
    simp only [Memory.wfFrom, Bool.and_eq_true, decide_eq_true_eq] at hm
    by_cases hlt : a < k
    · by_cases hv : v = Memory.unlisted
      · simpa [Memory.write, hlt, hv] using hc
      · simp [Memory.write, Memory.wfFrom, hlt, hv, ha, hm.1.2, hm.2, show a + 1 ≤ k from hlt]
    · by_cases hk : a = k
      · subst hk
        by_cases hv : v = Memory.unlisted
        · simpa [Memory.write, hv] using Memory.wfFrom_mono (by omega) hm.2
        · simp [Memory.write, Memory.wfFrom, hv, ha, hm.2]
      · simp [Memory.write, Memory.wfFrom, hlt, hk, hm.1.1, hm.1.2, ih hm.2 (by omega)]

theorem Memory.write_wf {m : Memory} (hm : Memory.wf m = true) (a : Nat) (v : Byte) :
    Memory.wf (Memory.write m a v) = true := Memory.write_wfFrom hm (Nat.zero_le a) v

/-- A write at an address that exists lists no address that does not. -/
theorem Memory.write_below {n : Nat} {m : Memory} (hm : Memory.below n m = true) {a : Nat}
    (ha : a < n) (v : Byte) : Memory.below n (Memory.write m a v) = true := by
  induction m with
  | nil => by_cases hv : v = Memory.unlisted <;> simp [Memory.write, Memory.below, hv, ha]
  | cons c m ih =>
    obtain ⟨k, w⟩ := c
    have hcons : ∀ (c : Host.Cell) (l : Memory),
        Memory.below n (c :: l) = (decide (c.1 < n) && Memory.below n l) := fun _ _ => rfl
    rw [hcons] at hm
    simp only [Bool.and_eq_true, decide_eq_true_eq] at hm
    by_cases hlt : a < k
    · by_cases hv : v = Memory.unlisted <;> simp [Memory.write, hcons, hlt, hv, ha, hm]
    · by_cases hk : a = k
      · by_cases hv : v = Memory.unlisted <;> simp [Memory.write, hk, hcons, hv, hm]
      · simp [Memory.write, hlt, hk, hcons, hm.1, ih hm.2]

/-- Canonical memories that read alike are equal. -/
theorem Memory.ext_of_read {lo : Nat} {m m' : Memory} (hm : Memory.wfFrom lo m = true)
    (hm' : Memory.wfFrom lo m' = true) (h : ∀ a, Memory.read m a = Memory.read m' a) : m = m' := by
  induction m generalizing lo m' with
  | nil =>
    cases m' with
    | nil => rfl
    | cons c' m' =>
      simp only [Memory.wfFrom, Bool.and_eq_true, decide_eq_true_eq] at hm'
      have := h c'.1
      simp [Memory.read] at this
      exact absurd this.symm hm'.1.2
  | cons c m ih =>
    obtain ⟨k, w⟩ := c
    simp only [Memory.wfFrom, Bool.and_eq_true, decide_eq_true_eq] at hm
    cases m' with
    | nil =>
      have := h k
      simp [Memory.read] at this
      exact absurd this hm.1.2
    | cons c' m' =>
      obtain ⟨k', w'⟩ := c'
      simp only [Memory.wfFrom, Bool.and_eq_true, decide_eq_true_eq] at hm'
      have hkk : k = k' := by
        have h1 := h k
        have h2 := h k'
        simp [Memory.read] at h1 h2
        rcases Nat.lt_trichotomy k k' with hlt | heq | hgt
        · simp [hlt] at h1; exact absurd h1 hm.1.2
        · exact heq
        · simp [hgt] at h2; exact absurd h2.symm hm'.1.2
      subst hkk
      have hw : w = w' := by simpa [Memory.read] using h k
      subst hw
      have : m = m' := by
        refine ih hm.2 hm'.2 fun a => ?_
        by_cases ha : a < k + 1
        · rw [Memory.read_below hm.2 ha, Memory.read_below hm'.2 ha]
        · have := h a
          simpa [Memory.read, show ¬ a < k by omega, show a ≠ k by omega] using this
      rw [this]

theorem Memory.eq_of_read {m m' : Memory} (hm : Memory.wf m = true) (hm' : Memory.wf m' = true)
    (h : ∀ a, Memory.read m a = Memory.read m' a) : m = m' := Memory.ext_of_read hm hm' h

/-! ### Loads and stores of a state -/

theorem State.load_eq_some {s : State} {a : Nat} (h : a < s.cfg.memBytes) :
    s.load a = some (Memory.read s.mem a) := by simp [State.load, h]

theorem State.store_eq_some {s : State} {a : Nat} (h : a < s.cfg.memBytes) (v : Byte) :
    s.store a v = some (s.setMem (Memory.write s.mem a v)) := by simp [State.store, h]

/-- A load depends on the memory and its size alone. -/
theorem State.load_congr {s t : State} (hc : t.cfg = s.cfg) (hm : t.mem = s.mem) (a : Nat) :
    t.load a = s.load a := by simp [State.load, hc, hm]

/-- The slice read of addresses that exist is the list of R12. -/
theorem State.readSlice_eq {s : State} {a n : Nat} (h : a + n ≤ s.cfg.memBytes) :
    s.readSlice a n = some (sliceBytes s.mem a n) := by
  induction n generalizing a with
  | zero => simp [State.readSlice, sliceBytes]
  | succ n ih =>
    have h1 : a < s.cfg.memBytes := by omega
    simp only [State.readSlice, State.load_eq_some h1, ih (a := a + 1) (by omega)]
    simp [sliceBytes, List.range_succ_eq_map, List.map_map, Function.comp_def]
    intro i _
    congr 1
    omega

/-! ### The fill of a region -/

/-- What a fill of addresses that exist does: it writes the region, and nothing else of the state. -/
theorem State.fill_spec {v : Byte} {a n : Nat} {s : State} (h : a + n ≤ s.cfg.memBytes)
    (hm : Memory.wf s.mem = true) :
    ∃ m, State.fill v a n s = some (s.setMem m) ∧ Memory.wf m = true ∧
      ∀ b, Memory.read m b = if a ≤ b ∧ b < a + n then v else Memory.read s.mem b := by
  induction n generalizing a s with
  | zero => exact ⟨s.mem, rfl, hm, fun b => by rw [if_neg (by omega)]⟩
  | succ n ih =>
    have h1 : a < s.cfg.memBytes := by omega
    obtain ⟨m, he, hw, hr⟩ := ih (a := a + 1) (s := s.setMem (Memory.write s.mem a v))
      (by simpa using by omega) (Memory.write_wf hm a v)
    refine ⟨m, by simpa [State.fill, State.store_eq_some h1] using he, hw, fun b => ?_⟩
    rw [hr b, State.setMem_mem, Memory.read_write hm]
    by_cases hb : b = a
    · subst hb; simp
    · by_cases h2 : a + 1 ≤ b ∧ b < a + 1 + n
      · rw [if_pos h2, if_pos (by omega)]
      · rw [if_neg h2, if_neg hb, if_neg (by omega)]

/-- A fill that ends has written the memory alone, keeping its form and its bounds. -/
theorem State.fill_keeps {v : Byte} {a n : Nat} {s t : State} (h : State.fill v a n s = some t) :
    ∃ m, t = s.setMem m ∧ (Memory.wf s.mem = true → Memory.wf m = true) ∧
      (Memory.below s.cfg.memBytes s.mem = true → Memory.below s.cfg.memBytes m = true) := by
  induction n generalizing a s with
  | zero => exact ⟨s.mem, by cases h; rfl, id, id⟩
  | succ n ih =>
    by_cases h1 : a < s.cfg.memBytes
    · simp only [State.fill, State.store_eq_some h1] at h
      obtain ⟨m, ht, hw, hb⟩ := ih h
      exact ⟨m, by rw [ht]; rfl, fun x => hw (Memory.write_wf x a v),
        fun x => hb (Memory.write_below x h1 v)⟩
    · simp [State.fill, State.store, h1] at h

end Sys2Proof.Machine
end

