-- ==== Sys2Proof/Laws/Primitives.lean ====
section
/-! SUPPORT. What the sequencing primitives do, said once: a sequence of transfers is a list of framed
bus writes, which either all succeed or stop at the first failure; a busy-wait returns at the first
ready sample or times out. -/

namespace Sys2Proof.Machine

/-! ### The environment's answers -/

@[simp] theorem busAt_takeBus (v : Env) (k : Nat) : busAt (takeBus v) k = busAt v (k + 1) := by
  unfold busAt takeBus
  simp only [List.getElem?_tail]
  cases v.busAnswers[k + 1]? with
  | some b => rfl
  | none => simp only; congr 1; omega

@[simp] theorem busyAt_takeBusy (v : Env) (k : Nat) : busyAt (takeBusy v) k = busyAt v (k + 1) := by
  unfold busyAt takeBusy
  simp only [List.getElem?_tail]
  cases v.busyAnswers[k + 1]? with
  | some b => rfl
  | none => simp only; congr 1; omega

theorem takeBus_eq (v : Env) : takeBus v = envAfter v 1 0 := by simp [takeBus, envAfter]

theorem takeBusy_eq (v : Env) : takeBusy v = envAfter v 0 1 := by simp [takeBusy, envAfter]

@[simp] theorem envAfter_zero (v : Env) : envAfter v 0 0 = v := by simp [envAfter]

@[simp] theorem envAfter_envAfter (v : Env) (n k n' k' : Nat) :
    envAfter (envAfter v n k) n' k' = envAfter v (n + n') (k + k') := by
  simp [envAfter, List.drop_drop, Nat.add_assoc]

@[simp] theorem envAfter_resets (v : Env) (n k : Nat) : (envAfter v n k).resets = v.resets := rfl

@[simp] theorem busAt_envAfter (v : Env) (n k j : Nat) : busAt (envAfter v n k) j = busAt v (n + j) := by
  unfold busAt envAfter
  simp only [List.getElem?_drop]
  cases v.busAnswers[n + j]? with
  | some b => rfl
  | none => simp only; congr 1; omega

@[simp] theorem busyAt_envAfter (v : Env) (n k j : Nat) :
    busyAt (envAfter v n k) j = busyAt v (k + j) := by
  unfold busyAt envAfter
  simp only [List.getElem?_drop]
  cases v.busyAnswers[k + j]? with
  | some b => rfl
  | none => simp only; congr 1; omega

/-- Either the next `n` bus writes succeed, or there is a first that fails. -/
theorem busOk_or_fails (v : Env) (n : Nat) : BusOk v n ∨ ∃ k < n, BusFailsAt v k := by
  induction n with
  | zero => exact .inl fun k hk => absurd hk (Nat.not_lt_zero k)
  | succ n ih =>
    rcases ih with h | ⟨k, hk, hf⟩
    · cases hb : busAt v n with
      | true =>
        refine .inl fun k hk => ?_
        rcases Nat.lt_succ_iff_lt_or_eq.mp hk with hlt | heq
        · exact h k hlt
        · rw [heq]; exact hb
      | false => exact .inr ⟨n, Nat.lt_succ_self n, h, hb⟩
    · exact .inr ⟨k, Nat.lt_succ_of_lt hk, hf⟩

/-- The two cases exclude each other. -/
theorem busFailsAt_not_ok {v : Env} {n k : Nat} (h : BusOk v n) (hk : k < n) : ¬ BusFailsAt v k :=
  fun hf => by have := h k hk; rw [hf.2] at this; exact absurd this (by decide)

/-- The first failing write is unique. -/
theorem busFailsAt_unique {v : Env} {j k : Nat} (hj : BusFailsAt v j) (hk : BusFailsAt v k) : j = k := by
  rcases Nat.lt_trichotomy j k with h | h | h
  · have := hk.1 j h; rw [hj.2] at this; exact absurd this (by decide)
  · exact h
  · have := hj.1 k h; rw [hk.2] at this; exact absurd this (by decide)

/-- The sample at which the panel is ready is unique. -/
theorem readyAt_unique {p : Params} {v : Env} {j k : Nat} (hj : ReadyAt p v j) (hk : ReadyAt p v k) :
    j = k := by
  rcases Nat.lt_trichotomy j k with h | h | h
  · exact absurd (hk.1 j h) hj.2
  · exact h
  · exact absurd (hj.1 k h) hk.2

theorem readyAt_not_never {p : Params} {v : Env} {k : Nat} (h : ReadyAt p v k)
    (hk : k < p.busyMaxPolls) : ¬ NeverReady p v := fun hn => h.2 (hn k hk)

/-! ### The states between primitives -/

@[simp] theorem sent_cfg (s : State) (fs : List Frame) : (sent s fs).cfg = s.cfg := rfl
@[simp] theorem sent_opw (s : State) (fs : List Frame) : (sent s fs).opw = s.opw := rfl
@[simp] theorem sent_result (s : State) (fs : List Frame) : (sent s fs).result = s.result := rfl
@[simp] theorem sent_ret0 (s : State) (fs : List Frame) : (sent s fs).ret0 = s.ret0 := rfl
@[simp] theorem sent_ret1 (s : State) (fs : List Frame) : (sent s fs).ret1 = s.ret1 := rfl
@[simp] theorem sent_fb (s : State) (fs : List Frame) : (sent s fs).fb = s.fb := rfl
@[simp] theorem sent_dcu (s : State) (fs : List Frame) : (sent s fs).dcu = s.dcu := rfl
@[simp] theorem sent_lines (s : State) (fs : List Frame) : (sent s fs).lines = linesAfter s.cfg s.lines fs := rfl
@[simp] theorem sent_mem (s : State) (fs : List Frame) : (sent s fs).mem = s.mem := rfl
@[simp] theorem sent_history (s : State) (fs : List Frame) : (sent s fs).history =
    s.history ++ fs.flatMap (frameEvents s.cfg) := rfl
@[simp] theorem sent_host (s : State) (fs : List Frame) : (sent s fs).host = s.host := rfl
@[simp] theorem sent_env (s : State) (fs : List Frame) : (sent s fs).env = envAfter s.env fs.length 0 := rfl

@[simp] theorem sentUpTo_cfg (s : State) (fs : List Frame) (k : Nat) (f : Frame) : (sentUpTo s fs k f).cfg =
    s.cfg := rfl
@[simp] theorem sentUpTo_opw (s : State) (fs : List Frame) (k : Nat) (f : Frame) : (sentUpTo s fs k f).opw =
    s.opw := rfl
@[simp] theorem sentUpTo_result (s : State) (fs : List Frame) (k : Nat) (f : Frame) : (sentUpTo s fs k f).result =
    s.result := rfl
@[simp] theorem sentUpTo_ret0 (s : State) (fs : List Frame) (k : Nat) (f : Frame) : (sentUpTo s fs k f).ret0 =
    s.ret0 := rfl
@[simp] theorem sentUpTo_ret1 (s : State) (fs : List Frame) (k : Nat) (f : Frame) : (sentUpTo s fs k f).ret1 =
    s.ret1 := rfl
@[simp] theorem sentUpTo_fb (s : State) (fs : List Frame) (k : Nat) (f : Frame) : (sentUpTo s fs k f).fb =
    s.fb := rfl
@[simp] theorem sentUpTo_dcu (s : State) (fs : List Frame) (k : Nat) (f : Frame) : (sentUpTo s fs k f).dcu =
    s.dcu := rfl
@[simp] theorem sentUpTo_lines (s : State) (fs : List Frame) (k : Nat) (f : Frame) : (sentUpTo s fs k f).lines =
    ⟨s.cfg.csActive, f.level, s.lines.rst⟩ := rfl
@[simp] theorem sentUpTo_mem (s : State) (fs : List Frame) (k : Nat) (f : Frame) : (sentUpTo s fs k f).mem =
    s.mem := rfl
@[simp] theorem sentUpTo_history (s : State) (fs : List Frame) (k : Nat) (f : Frame) : (sentUpTo s fs k f).history =
    s.history ++ (fs.take k).flatMap (frameEvents s.cfg) ++ failedEvents s.cfg f := rfl
@[simp] theorem sentUpTo_host (s : State) (fs : List Frame) (k : Nat) (f : Frame) : (sentUpTo s fs k f).host =
    s.host := rfl
@[simp] theorem sentUpTo_env (s : State) (fs : List Frame) (k : Nat) (f : Frame) : (sentUpTo s fs k f).env =
    envAfter s.env (k + 1) 0 := rfl

@[simp] theorem waited_cfg (s : State) (k : Nat) : (waited s k).cfg = s.cfg := rfl
@[simp] theorem waited_opw (s : State) (k : Nat) : (waited s k).opw = s.opw := rfl
@[simp] theorem waited_result (s : State) (k : Nat) : (waited s k).result = s.result := rfl
@[simp] theorem waited_ret0 (s : State) (k : Nat) : (waited s k).ret0 = s.ret0 := rfl
@[simp] theorem waited_ret1 (s : State) (k : Nat) : (waited s k).ret1 = s.ret1 := rfl
@[simp] theorem waited_fb (s : State) (k : Nat) : (waited s k).fb = s.fb := rfl
@[simp] theorem waited_dcu (s : State) (k : Nat) : (waited s k).dcu = s.dcu := rfl
@[simp] theorem waited_lines (s : State) (k : Nat) : (waited s k).lines = s.lines := rfl
@[simp] theorem waited_mem (s : State) (k : Nat) : (waited s k).mem = s.mem := rfl
@[simp] theorem waited_history (s : State) (k : Nat) : (waited s k).history =
    s.history ++ waitEvents s.cfg k := rfl
@[simp] theorem waited_host (s : State) (k : Nat) : (waited s k).host = s.host := rfl
@[simp] theorem waited_env (s : State) (k : Nat) : (waited s k).env = envAfter s.env 0 (k + 1) := rfl

@[simp] theorem timedOut_cfg (s : State) : (timedOut s).cfg = s.cfg := rfl
@[simp] theorem timedOut_opw (s : State) : (timedOut s).opw = s.opw := rfl
@[simp] theorem timedOut_result (s : State) : (timedOut s).result = s.result := rfl
@[simp] theorem timedOut_ret0 (s : State) : (timedOut s).ret0 = s.ret0 := rfl
@[simp] theorem timedOut_ret1 (s : State) : (timedOut s).ret1 = s.ret1 := rfl
@[simp] theorem timedOut_fb (s : State) : (timedOut s).fb = s.fb := rfl
@[simp] theorem timedOut_dcu (s : State) : (timedOut s).dcu = s.dcu := rfl
@[simp] theorem timedOut_lines (s : State) : (timedOut s).lines = s.lines := rfl
@[simp] theorem timedOut_mem (s : State) : (timedOut s).mem = s.mem := rfl
@[simp] theorem timedOut_history (s : State) : (timedOut s).history =
    s.history ++ pollEvents s.cfg s.cfg.busyMaxPolls := rfl
@[simp] theorem timedOut_host (s : State) : (timedOut s).host = s.host := rfl
@[simp] theorem timedOut_env (s : State) : (timedOut s).env = envAfter s.env 0 s.cfg.busyMaxPolls := rfl

@[simp] theorem pulsed_cfg (s : State) : (pulsed s).cfg = s.cfg := rfl
@[simp] theorem pulsed_opw (s : State) : (pulsed s).opw = s.opw := rfl
@[simp] theorem pulsed_result (s : State) : (pulsed s).result = s.result := rfl
@[simp] theorem pulsed_ret0 (s : State) : (pulsed s).ret0 = s.ret0 := rfl
@[simp] theorem pulsed_ret1 (s : State) : (pulsed s).ret1 = s.ret1 := rfl
@[simp] theorem pulsed_fb (s : State) : (pulsed s).fb = s.fb := rfl
@[simp] theorem pulsed_dcu (s : State) : (pulsed s).dcu = s.dcu := rfl
@[simp] theorem pulsed_lines (s : State) : (pulsed s).lines = ⟨s.lines.cs, s.lines.dc, .high⟩ := rfl
@[simp] theorem pulsed_mem (s : State) : (pulsed s).mem = s.mem := rfl
@[simp] theorem pulsed_history (s : State) : (pulsed s).history = s.history ++ pulseEvents s.cfg := rfl
@[simp] theorem pulsed_host (s : State) : (pulsed s).host = s.host := rfl
@[simp] theorem pulsed_env (s : State) : (pulsed s).env = s.env := rfl

@[simp] theorem sent_nil (s : State) : sent s [] = s := by simp [sent, linesAfter]

theorem linesAfter_cons (p : Params) (l : Lines) (f : Frame) (fs : List Frame) :
    linesAfter p (linesAfter p l [f]) fs = linesAfter p l (f :: fs) := by
  rcases List.eq_nil_or_concat fs with h | ⟨fs, g, rfl⟩
  · subst h; simp [linesAfter]
  · simp only [linesAfter, List.concat_eq_append, List.getLast?_append, List.getLast?_singleton,
      ← List.cons_append, Option.some_or]

theorem sent_cons (s : State) (f : Frame) (fs : List Frame) :
    sent (sent s [f]) fs = sent s (f :: fs) := by
  unfold sent
  simp [linesAfter_cons, Nat.add_comm]

/-! ### Framed writes -/

/-- A framed write the bus accepts. -/
theorem framedWrite_ok {s : State} (h : busAt s.env 0 = true) (level : Level) (bytes : List Byte) :
    framedWrite level bytes s = .sent (sent s [⟨level, bytes⟩]) := by
  simp [framedWrite, busWrite, setPin, h, andThen, sent, linesAfter, frameEvents, takeBus_eq,
    State.setLines, State.emit, State.setEnv, Lines.set]

/-- A framed write the bus rejects. -/
theorem framedWrite_fails {s : State} (h : busAt s.env 0 = false) (level : Level)
    (bytes : List Byte) :
    framedWrite level bytes s = .busFault (sentUpTo s [] 0 ⟨level, bytes⟩) := by
  simp [framedWrite, busWrite, setPin, h, andThen, sentUpTo, failedEvents, takeBus_eq,
    State.setLines, State.emit, State.setEnv, Lines.set]

/-- A list of framed writes, run first to last. -/
def sendFrames : List Frame → State → SendEnd
  | [], s => .sent s
  | f :: fs, s => andThen (framedWrite f.level f.bytes s) (sendFrames fs)

theorem andThen_assoc (r : SendEnd) (k l : State → SendEnd) :
    andThen (andThen r k) l = andThen r fun s => andThen (k s) l := by
  cases r <;> rfl

theorem sendFrames_append (fs gs : List Frame) (s : State) :
    sendFrames (fs ++ gs) s = andThen (sendFrames fs s) (sendFrames gs) := by
  induction fs generalizing s with
  | nil => rfl
  | cons f fs ih =>
    show andThen _ _ = andThen (andThen _ _) _
    rw [andThen_assoc]
    congr 1
    funext t
    exact ih t

/-- What a list of framed writes does: all succeed, or it stops at the first that fails. -/
theorem sendFrames_ok {fs : List Frame} {s : State} (h : BusOk s.env fs.length) :
    sendFrames fs s = .sent (sent s fs) := by
  induction fs generalizing s with
  | nil => simp [sendFrames]
  | cons f fs ih =>
    have h0 : busAt s.env 0 = true := h 0 (by simp)
    show andThen _ _ = _
    rw [framedWrite_ok h0]
    show sendFrames fs _ = _
    rw [ih, sent_cons]
    intro k hk
    simpa [Nat.add_comm] using h (k + 1) (by simpa using hk)

theorem sendFrames_fails {fs : List Frame} {s : State} {k : Nat} {f : Frame}
    (h : BusFailsAt s.env k) (hf : fs[k]? = some f) :
    sendFrames fs s = .busFault (sentUpTo s fs k f) := by
  induction fs generalizing s k with
  | nil => simp at hf
  | cons g fs ih =>
    cases k with
    | zero =>
      simp only [List.getElem?_cons_zero, Option.some.injEq] at hf
      subst hf
      show andThen _ _ = _
      rw [framedWrite_fails h.2]
      simp [andThen, sentUpTo]
    | succ k =>
      have h0 : busAt s.env 0 = true := h.1 0 (Nat.succ_pos k)
      show andThen _ _ = _
      rw [framedWrite_ok h0]
      show sendFrames fs _ = _
      rw [ih (k := k) _ (by simpa using hf)]
      · unfold sentUpTo sent
        simp [linesAfter, Nat.add_comm, Nat.add_left_comm]
      · exact ⟨fun j hj => by simpa [Nat.add_comm] using h.1 (j + 1) (by omega),
          by simpa [Nat.add_comm] using h.2⟩

/-! ### Commands, data and sequences are framed writes -/

theorem sendCommand_eq (c : Byte) (s : State) :
    sendCommand c s = sendFrames [⟨s.cfg.dcCmdLevel, [c]⟩] s := by
  show framedWrite _ _ _ = andThen _ _
  cases framedWrite s.cfg.dcCmdLevel [c] s <;> rfl

theorem framedWrite_cfg {level : Level} {bytes : List Byte} {s t : State}
    (h : framedWrite level bytes s = .sent t) : t.cfg = s.cfg := by
  cases hb : busAt s.env 0 with
  | true => rw [framedWrite_ok hb] at h; cases h; rfl
  | false => rw [framedWrite_fails hb] at h; cases h

theorem sendXfer_eq (t : Xfer) (s : State) : sendXfer t s = sendFrames (xferFrames s.cfg t) s := by
  show andThen (framedWrite _ _ _) _ = andThen (framedWrite _ _ _) _
  cases h : framedWrite s.cfg.dcCmdLevel [t.cmd] s with
  | busFault u => rfl
  | sent u =>
    have hc := framedWrite_cfg h
    show sendData t.data u = sendFrames _ u
    by_cases hd : t.data = []
    · simp [sendData, hd, sendFrames]
    · simp only [sendData, hd, if_false, sendFrames, hc]
      cases framedWrite s.cfg.dcCmdLevel.not t.data u <;> rfl

theorem sendFrames_cfg {fs : List Frame} {s t : State} (h : sendFrames fs s = .sent t) :
    t.cfg = s.cfg := by
  rcases busOk_or_fails s.env fs.length with hok | ⟨k, hk, hf⟩
  · rw [sendFrames_ok hok] at h; cases h; rfl
  · rw [sendFrames_fails hf (List.getElem?_eq_getElem hk)] at h; cases h

theorem sendSeq_eq (ts : List Xfer) (s : State) : sendSeq ts s = sendFrames (seqFrames s.cfg ts) s := by
  induction ts generalizing s with
  | nil => rfl
  | cons t ts ih =>
    show andThen (sendXfer t s) (sendSeq ts) = sendFrames (xferFrames s.cfg t ++ seqFrames s.cfg ts) s
    rw [sendFrames_append, ← sendXfer_eq]
    cases h : sendXfer t s with
    | busFault u => rfl
    | sent u =>
      have hc : u.cfg = s.cfg := sendFrames_cfg (by rw [← sendXfer_eq]; exact h)
      show sendSeq ts u = sendFrames _ u
      rw [ih, hc]

/-- A sequence whose writes all succeed. -/
theorem sendSeq_ok {ts : List Xfer} {s : State} (h : BusOk s.env (seqFrames s.cfg ts).length) :
    sendSeq ts s = .sent (sent s (seqFrames s.cfg ts)) := by rw [sendSeq_eq, sendFrames_ok h]

/-- A sequence that stops at its first failing write. -/
theorem sendSeq_fails {ts : List Xfer} {s : State} {k : Nat} {f : Frame} (h : BusFailsAt s.env k)
    (hf : (seqFrames s.cfg ts)[k]? = some f) :
    sendSeq ts s = .busFault (sentUpTo s (seqFrames s.cfg ts) k f) := by
  rw [sendSeq_eq, sendFrames_fails h hf]

theorem sendXfer_ok {t : Xfer} {s : State} (h : BusOk s.env (xferFrames s.cfg t).length) :
    sendXfer t s = .sent (sent s (xferFrames s.cfg t)) := by rw [sendXfer_eq, sendFrames_ok h]

theorem sendXfer_fails {t : Xfer} {s : State} {k : Nat} {f : Frame} (h : BusFailsAt s.env k)
    (hf : (xferFrames s.cfg t)[k]? = some f) :
    sendXfer t s = .busFault (sentUpTo s (xferFrames s.cfg t) k f) := by
  rw [sendXfer_eq, sendFrames_fails h hf]

theorem seqFrames_singleton (p : Params) (t : Xfer) : seqFrames p [t] = xferFrames p t := by
  simp [seqFrames]

/-- Everything a sequence of transfers can do. -/
theorem sendSeq_cases (ts : List Xfer) (s : State) :
    (BusOk s.env (seqFrames s.cfg ts).length ∧ sendSeq ts s = .sent (sent s (seqFrames s.cfg ts))) ∨
    ∃ k f, BusFailsAt s.env k ∧ (seqFrames s.cfg ts)[k]? = some f ∧
      sendSeq ts s = .busFault (sentUpTo s (seqFrames s.cfg ts) k f) := by
  rcases busOk_or_fails s.env (seqFrames s.cfg ts).length with h | ⟨k, hk, hf⟩
  · exact .inl ⟨h, sendSeq_ok h⟩
  · exact .inr ⟨k, _, hf, List.getElem?_eq_getElem hk, sendSeq_fails hf (List.getElem?_eq_getElem hk)⟩

/-- Everything one transfer can do. -/
theorem sendXfer_cases (t : Xfer) (s : State) :
    (BusOk s.env (xferFrames s.cfg t).length ∧
      sendXfer t s = .sent (sent s (xferFrames s.cfg t))) ∨
    ∃ k f, BusFailsAt s.env k ∧ (xferFrames s.cfg t)[k]? = some f ∧
      sendXfer t s = .busFault (sentUpTo s (xferFrames s.cfg t) k f) := by
  rcases busOk_or_fails s.env (xferFrames s.cfg t).length with h | ⟨k, hk, hf⟩
  · exact .inl ⟨h, sendXfer_ok h⟩
  · exact .inr ⟨k, _, hf, List.getElem?_eq_getElem hk,
      sendXfer_fails hf (List.getElem?_eq_getElem hk)⟩

/-! ### Busy-wait -/

theorem Level.not_of_ne {a b : Level} (h : a ≠ b) : a = b.not := by
  cases a <;> cases b <;> first | rfl | exact absurd rfl h

/-- A busy-wait with a ready sample within its bound. -/
theorem busyWait_ready {n k : Nat} {s : State} (hk : k < n) (h : ReadyAt s.cfg s.env k) :
    busyWait n s = .ready (waited s k) := by
  induction k generalizing n s with
  | zero =>
    obtain ⟨n, rfl⟩ := Nat.exists_eq_succ_of_ne_zero (by omega : n ≠ 0)
    have h0 := h.2
    simp only [busyWait, ne_eq, h0, not_false_eq_true, if_true]
    simp [waited, waitEvents, pollEvents, Level.not_of_ne h0, takeBusy_eq, State.emit, State.setEnv]
  | succ k ih =>
    obtain ⟨n, rfl⟩ := Nat.exists_eq_succ_of_ne_zero (by omega : n ≠ 0)
    have h0 : busyAt s.env 0 = s.cfg.busyActive := h.1 0 (Nat.succ_pos k)
    simp only [busyWait, h0, ne_eq, not_true_eq_false, if_false]
    rw [ih (by omega)]
    · unfold waited
      simp [delayMs, State.emit, State.setEnv, waitEvents, pollEvents, takeBusy_eq, Nat.add_comm,
        Nat.add_left_comm]
    · refine ⟨fun j hj => ?_, ?_⟩
      · simpa [delayMs] using h.1 (j + 1) (by omega)
      · simpa [delayMs] using h.2

/-- A busy-wait that finds the panel busy at every sample. -/
theorem busyWait_timeout {n : Nat} {s : State} (h : ∀ j < n, busyAt s.env j = s.cfg.busyActive) :
    busyWait n s = .timeout
      { s with history := s.history ++ pollEvents s.cfg n, env := envAfter s.env 0 n } := by
  induction n generalizing s with
  | zero => simp [busyWait, pollEvents]
  | succ n ih =>
    have h0 : busyAt s.env 0 = s.cfg.busyActive := h 0 (Nat.succ_pos n)
    simp only [busyWait, h0, ne_eq, not_true_eq_false, if_false]
    rw [ih]
    · simp [delayMs, State.emit, State.setEnv, pollEvents, takeBusy_eq, Nat.add_comm]
    · intro j hj
      simpa [delayMs] using h (j + 1) (by omega)

/-- Either a sample within the bound is the first ready one, or all are busy. -/
theorem ready_or_never (p : Params) (v : Env) (n : Nat) :
    (∃ k < n, ReadyAt p v k) ∨ ∀ j < n, busyAt v j = p.busyActive := by
  induction n with
  | zero => exact .inr fun j hj => absurd hj (Nat.not_lt_zero j)
  | succ n ih =>
    rcases ih with ⟨k, hk, h⟩ | h
    · exact .inl ⟨k, Nat.lt_succ_of_lt hk, h⟩
    · by_cases hn : busyAt v n = p.busyActive
      · refine .inr fun j hj => ?_
        rcases Nat.lt_succ_iff_lt_or_eq.mp hj with hlt | heq
        · exact h j hlt
        · rw [heq]; exact hn
      · exact .inl ⟨n, Nat.lt_succ_self n, h, hn⟩

/-- Everything the operation's busy-wait can do. -/
theorem busyWait_cases (s : State) :
    (∃ k < s.cfg.busyMaxPolls, ReadyAt s.cfg s.env k ∧
      busyWait s.cfg.busyMaxPolls s = .ready (waited s k)) ∨
    (NeverReady s.cfg s.env ∧ busyWait s.cfg.busyMaxPolls s = .timeout (timedOut s)) := by
  rcases ready_or_never s.cfg s.env s.cfg.busyMaxPolls with ⟨k, hk, h⟩ | h
  · exact .inl ⟨k, hk, h, busyWait_ready hk h⟩
  · exact .inr ⟨h, busyWait_timeout h⟩

/-! ### Counting events (R152, R184) -/

@[simp] theorem busyCount_append (h h' : List Event) :
    busyCount (h ++ h') = busyCount h + busyCount h' := List.countP_append

@[simp] theorem busCount_append (h h' : List Event) :
    busCount (h ++ h') = busCount h + busCount h' := List.countP_append

@[simp] theorem length_flatMap_frameEvents (p : Params) (fs : List Frame) :
    (fs.flatMap (frameEvents p)).length = 4 * fs.length := by
  induction fs with
  | nil => rfl
  | cons f fs ih => simp [ih, frameEvents]; omega

@[simp] theorem busyCount_flatMap_frameEvents (p : Params) (fs : List Frame) :
    busyCount (fs.flatMap (frameEvents p)) = 0 := by
  induction fs with
  | nil => rfl
  | cons f fs ih => rw [List.flatMap_cons, busyCount_append, ih]; rfl

@[simp] theorem length_pollEvents (p : Params) (n : Nat) : (pollEvents p n).length = 2 * n := by
  induction n with
  | zero => rfl
  | succ n ih => simp [pollEvents, ih]; omega

@[simp] theorem busyCount_pollEvents (p : Params) (n : Nat) : busyCount (pollEvents p n) = n := by
  induction n with
  | zero => rfl
  | succ n ih =>
    rw [show pollEvents p (n + 1) = [.busy p.busyActive, .delay p.pollIntervalMs] ++ pollEvents p n from
      rfl, busyCount_append, ih]
    exact Nat.add_comm _ _

@[simp] theorem length_waitEvents (p : Params) (k : Nat) : (waitEvents p k).length = 2 * k + 1 := by
  simp [waitEvents]

@[simp] theorem busyCount_waitEvents (p : Params) (k : Nat) : busyCount (waitEvents p k) = k + 1 := by
  rw [waitEvents, busyCount_append, busyCount_pollEvents]; rfl

@[simp] theorem length_pulseEvents (p : Params) : (pulseEvents p).length = 4 := rfl

@[simp] theorem busyCount_pulseEvents (p : Params) : busyCount (pulseEvents p) = 0 := rfl

/-! ### Reset pulse -/

theorem hardwareReset_eq (s : State) : hardwareReset s = pulsed s := by
  simp [hardwareReset, pulsed, setPin, delayMs, State.setLines, State.emit, pulseEvents, Lines.set]

end Sys2Proof.Machine
end

