-- ==== Sys2Proof/Laws/Operands.lean ====
section
/-! SUPPORT. What the operand functions do: enumeration words, slices and windows, the pixel locator,
and the bit operations on one byte. -/

namespace Sys2Proof.Machine

/-! ### Enumeration words -/

theorem colorOfWord_eq_none {v : Word} : colorOfWord v = none ↔ 2 ≤ v.toNat := by
  unfold colorOfWord
  generalize v.toNat = n
  rcases n with _ | _ | n <;> simp

theorem rotationOfWord_eq_none {v : Word} : rotationOfWord v = none ↔ 4 ≤ v.toNat := by
  unfold rotationOfWord
  generalize v.toNat = n
  rcases n with _ | _ | _ | _ | n <;> simp

theorem lutSelOfWord_eq_none {v : Word} : lutSelOfWord v = none ↔ 3 ≤ v.toNat := by
  unfold lutSelOfWord
  generalize v.toNat = n
  rcases n with _ | _ | _ | n <;> simp

theorem colorOfWord_lt {v : Word} (h : v.toNat < 2) :
    ∃ c, colorOfWord v = some c ∧ colorCode c = v.toNat := by
  unfold colorOfWord
  split
  · exact ⟨.black, rfl, by simp_all [colorCode]⟩
  · exact ⟨.white, rfl, by simp_all [colorCode]⟩
  · simp only [imp_false] at *; omega

theorem rotationOfWord_lt {v : Word} (h : v.toNat < 4) :
    ∃ r, rotationOfWord v = some r ∧ rotationCode r = v.toNat := by
  unfold rotationOfWord
  split
  · exact ⟨.rotate0, rfl, by simp_all [rotationCode]⟩
  · exact ⟨.rotate90, rfl, by simp_all [rotationCode]⟩
  · exact ⟨.rotate180, rfl, by simp_all [rotationCode]⟩
  · exact ⟨.rotate270, rfl, by simp_all [rotationCode]⟩
  · simp only [imp_false] at *; omega

theorem lutSelOfWord_lt {v : Word} (h : v.toNat < 3) (pv : PanelVariant) :
    ∃ l, lutSelOfWord v = some l ∧ lutSelCode l = v.toNat ∧ lutTable pv l = tableOf pv v.toNat := by
  unfold lutSelOfWord
  split
  · rename_i h0; exact ⟨.none, rfl, h0.symm, by rw [h0]; rfl⟩
  · rename_i h0; exact ⟨.full, rfl, h0.symm, by rw [h0]; rfl⟩
  · rename_i h0; exact ⟨.quick, rfl, h0.symm, by rw [h0]; rfl⟩
  · simp only [imp_false] at *; omega

/-! ### Slices and windows -/

theorem sliceLegal_iff {p : Params} {a n : Word} :
    sliceLegal p a n = true ↔ a.toNat + n.toNat ≤ p.memBytes := by simp [sliceLegal]

theorem sliceLegal_eq_false {p : Params} {a n : Word} :
    sliceLegal p a n = false ↔ p.memBytes < a.toNat + n.toNat := by simp [sliceLegal]

theorem windowValid_iff {p : Params} {win : Window} :
    windowValid p win = true ↔
      1 ≤ win.w ∧ 1 ≤ win.h ∧ win.x < p.devWidth ∧ win.y < p.devHeight ∧
      win.x + win.w ≤ p.devWidth ∧ win.y + win.h ≤ p.devHeight ∧
      win.w % p.granX = 0 ∧ win.h % p.granY = 0 := by
  simp [windowValid, and_assoc]

/-- The window check is its numbers: the bounds on `x` and `y` alone follow from the others (R178). -/
theorem windowValid_iff_fits {p : Params} {x y w h : Nat} :
    windowValid p ⟨x, y, w, h⟩ = true ↔
      1 ≤ w ∧ 1 ≤ h ∧ x + w ≤ p.devWidth ∧ y + h ≤ p.devHeight ∧ w % p.granX = 0 ∧ h % p.granY = 0 := by
  rw [windowValid_iff]
  simp only
  omega

theorem sliceBytes_length (m : Memory) (a n : Nat) : (sliceBytes m a n).length = n := by
  simp [sliceBytes]

/-- The rows of a window from row `r` on lie inside the slice, so reading them is reading `M`. -/
theorem extractRows_eq {s : State} {addr x w r n : Nat}
    (hx : x + w ≤ s.cfg.devWidth) (hr : r + n ≤ s.cfg.devHeight)
    (hs : addr + frameBytes s.cfg ≤ s.cfg.memBytes) :
    extractRows s addr x w r n = some ((List.range n).flatMap fun i =>
      sliceBytes s.mem (addr + (r + i) * devStride s.cfg + x / 8) (w / 8)) := by
  induction n generalizing r with
  | zero => simp [extractRows]
  | succ n ih =>
    have hrow : addr + r * devStride s.cfg + x / 8 + w / 8 ≤ s.cfg.memBytes := by
      have h1 : x / 8 + w / 8 ≤ devStride s.cfg := by unfold devStride; omega
      have h2 : (r + 1) * devStride s.cfg ≤ frameBytes s.cfg := by
        rw [frameBytes, Nat.mul_comm (devStride s.cfg)]
        exact Nat.mul_le_mul_right _ (by omega)
      have h3 : (r + 1) * devStride s.cfg = r * devStride s.cfg + devStride s.cfg := by ring
      omega
    simp only [extractRows, State.readSlice_eq hrow, ih (r := r + 1) (by omega)]
    simp [List.range_succ_eq_map, List.flatMap_map, Nat.add_assoc,
      Nat.add_comm 1]

/-- `Extract` of a valid window of a legal full-frame slice is the list of R179. -/
theorem extract_eq {s : State} {addr : Nat} {win : Window} (hw : windowValid s.cfg win = true)
    (hs : addr + frameBytes s.cfg ≤ s.cfg.memBytes) :
    extract s addr win = some (windowBytes s.cfg s.mem addr win) := by
  obtain ⟨-, -, -, -, hx, hy, -, -⟩ := windowValid_iff.mp hw
  exact extractRows_eq hx hy hs

/-! ### The bit operations on one byte -/

theorem pixelMask_ne_zero (x : Nat) : pixelMask x ≠ 0 := by
  have h : ∀ k < 8, (0x80#8 >>> k) ≠ 0#8 := by decide
  exact h (x % 8) (Nat.mod_lt x (by decide))

theorem pixelMask_and {x y : Nat} (h : x % 8 ≠ y % 8) : pixelMask x &&& pixelMask y = 0 := by
  have h8 : ∀ j < 8, ∀ k < 8, j ≠ k → (0x80#8 >>> j) &&& (0x80#8 >>> k) = 0#8 := by decide
  exact h8 _ (Nat.mod_lt x (by decide)) _ (Nat.mod_lt y (by decide)) h

theorem pixelMask_not_and {x y : Nat} (h : x % 8 ≠ y % 8) :
    ~~~pixelMask x &&& pixelMask y = pixelMask y := by
  have h8 : ∀ j < 8, ∀ k < 8, j ≠ k →
      ~~~(0x80#8 >>> j) &&& (0x80#8 >>> k) = 0x80#8 >>> k := by decide
  exact h8 _ (Nat.mod_lt x (by decide)) _ (Nat.mod_lt y (by decide)) h

theorem pixelMask_injective {x y : Nat} (h : pixelMask x = pixelMask y) : x % 8 = y % 8 := by
  by_contra hne
  have := pixelMask_and hne
  rw [← h, BitVec.and_self] at this
  exact pixelMask_ne_zero x this

/-- The bit painted reads as the colour painted. -/
theorem pixelValue_paint (c : Color) (b : Byte) (x : Nat) :
    pixelValue (paint c b (pixelMask x)) (pixelMask x) = BitVec.ofNat 32 (colorCode c) := by
  have hne := pixelMask_ne_zero x
  have habs : (b ||| pixelMask x) &&& pixelMask x = pixelMask x := by
    ext i hi
    cases h : (pixelMask x)[i] <;> simp [h]
  have hz : (b &&& ~~~pixelMask x) &&& pixelMask x = 0 := by
    ext i hi
    cases h : (pixelMask x)[i] <;> simp [h]
  cases c with
  | white => simp only [pixelValue, paint, habs]; rw [if_pos hne]; rfl
  | black => simp only [pixelValue, paint, hz]; simp [colorCode]

/-- Every other bit of the byte reads as before. -/
theorem pixelValue_paint_other (c : Color) (b : Byte) {x y : Nat} (h : x % 8 ≠ y % 8) :
    pixelValue (paint c b (pixelMask x)) (pixelMask y) = pixelValue b (pixelMask y) := by
  have h1 : (b ||| pixelMask x) &&& pixelMask y = b &&& pixelMask y := by
    have : (b ||| pixelMask x) &&& pixelMask y =
        (b &&& pixelMask y) ||| (pixelMask x &&& pixelMask y) := by
      ext i hi
      cases h : (pixelMask y)[i] <;> simp [h]
    rw [this, pixelMask_and h]
    simp
  have h2 : (b &&& ~~~pixelMask x) &&& pixelMask y = b &&& pixelMask y := by
    rw [BitVec.and_assoc, pixelMask_not_and h]
  cases c <;> simp only [pixelValue, paint, h1, h2]

/-! ### The pixel locator -/

/-- What `Locate` accepts and what it then answers (R117). -/
theorem locate_eq_some {fb : FbRegs} {x y a : Nat} {m : Byte} :
    locate fb x y = some (a, m) ↔
      x < fb.width.toNat ∧ y < fb.height.toNat ∧
      (rotated fb.rot x y fb.width.toNat fb.height.toNat).1 < fb.width.toNat ∧
      (rotated fb.rot x y fb.width.toNat fb.height.toNat).2 < fb.height.toNat ∧
      a = fb.base.toNat + byteIndex fb.width.toNat
        (rotated fb.rot x y fb.width.toNat fb.height.toNat).1
        (rotated fb.rot x y fb.width.toNat fb.height.toNat).2 ∧
      m = pixelMask (rotated fb.rot x y fb.width.toNat fb.height.toNat).1 := by
  unfold locate
  by_cases h1 : fb.width.toNat ≤ x ∨ fb.height.toNat ≤ y
  · simp only [h1, if_true]
    constructor
    · intro h; exact absurd h (by simp)
    · rintro ⟨hx, hy, -⟩; omega
  · simp only [h1, if_false]
    by_cases h2 : fb.width.toNat ≤ (rotated fb.rot x y fb.width.toNat fb.height.toNat).1 ∨
        fb.height.toNat ≤ (rotated fb.rot x y fb.width.toNat fb.height.toNat).2
    · simp only [h2, if_true]
      constructor
      · intro h; exact absurd h (by simp)
      · rintro ⟨-, -, hx, hy, -⟩; omega
    · simp only [h2, if_false, Option.some.injEq, Prod.mk.injEq]
      constructor
      · rintro ⟨ha, hm⟩; exact ⟨by omega, by omega, by omega, by omega, ha.symm, hm.symm⟩
      · rintro ⟨-, -, -, -, ha, hm⟩; exact ⟨ha.symm, hm.symm⟩

theorem locate_eq_none {fb : FbRegs} {x y : Nat} :
    locate fb x y = none ↔
      fb.width.toNat ≤ x ∨ fb.height.toNat ≤ y ∨
      fb.width.toNat ≤ (rotated fb.rot x y fb.width.toNat fb.height.toNat).1 ∨
      fb.height.toNat ≤ (rotated fb.rot x y fb.width.toNat fb.height.toNat).2 := by
  unfold locate
  by_cases h1 : fb.width.toNat ≤ x ∨ fb.height.toNat ≤ y
  · simp only [h1, if_true, true_iff]; tauto
  · simp only [h1, if_false, ite_eq_left_iff, reduceCtorEq, imp_false, not_not]; tauto

/-- A byte index of an internal coordinate inside the bitmap is below the bitmap's length (R67). -/
theorem byteIndex_lt {W Ht x y : Nat} (hW : W % 8 = 0) (hx : x < W) (hy : y < Ht) :
    byteIndex W x y < W / 8 * Ht := by
  have h1 : x / 8 < W / 8 := by omega
  calc byteIndex W x y < y * (W / 8) + W / 8 := by unfold byteIndex; omega
    _ = (y + 1) * (W / 8) := by ring
    _ ≤ Ht * (W / 8) := Nat.mul_le_mul_right _ hy
    _ = W / 8 * Ht := Nat.mul_comm _ _

/-- Byte index and mask determine the internal coordinate (R67). -/
theorem byteIndex_injective {W x y x' y' : Nat} (hW : W % 8 = 0) (hx : x < W) (hx' : x' < W)
    (hi : byteIndex W x y = byteIndex W x' y') (hm : x % 8 = x' % 8) : x = x' ∧ y = y' := by
  have h1 : x / 8 < W / 8 := by omega
  have h2 : x' / 8 < W / 8 := by omega
  unfold byteIndex at hi
  have hy : y = y' := by
    rcases Nat.lt_trichotomy y y' with h | h | h
    · have : (y + 1) * (W / 8) ≤ y' * (W / 8) := Nat.mul_le_mul_right _ h
      have : (y + 1) * (W / 8) = y * (W / 8) + W / 8 := by ring
      omega
    · exact h
    · have : (y' + 1) * (W / 8) ≤ y * (W / 8) := Nat.mul_le_mul_right _ h
      have : (y' + 1) * (W / 8) = y' * (W / 8) + W / 8 := by ring
      omega
  subst hy
  exact ⟨by omega, rfl⟩

/-- Each row of the rotation table is injective on the logical range (R116). -/
theorem rotated_injective {r : Rotation} {x y x' y' W Ht : Nat} (hx : x < W) (hy : y < Ht)
    (hx' : x' < W) (hy' : y' < Ht) (h : rotated r x y W Ht = rotated r x' y' W Ht) :
    x = x' ∧ y = y' := by
  cases r <;> simp only [rotated, Prod.mk.injEq] at h <;> omega

end Sys2Proof.Machine
end

