-- ==== Sys2Proof/Laws/Controller.lean ====
section
/-! SUPPORT. Everything a controller operation can do, said once: it is refused with nothing but RESULT
changed, or it runs, and then its bus writes and its busy-wait decide how it ends. -/

namespace Sys2Proof.Machine

/-! ### Ending an operation and the state check -/

/-- The codes of the classes `caller error` and `refusal` (R200, R222). -/
def isCallerError : ResultCode → Bool
  | .sizeMismatch => true
  | .invalidWindow => true
  | .deviceFaulted => true
  | .invalidState => true
  | .illegalOperation => true
  | .ok => false
  | .initBusFault => false
  | .initTimeout => false
  | .cmdBusFault => false
  | .timeout => false
  | .noResult => false

theorem raise_callerError {c : ResultCode} (h : isCallerError c = true) (s : State) :
    raise c s = s.setResult c := by cases c <;> first | rfl | exact absurd h (by decide)

theorem raise_deviceFailure {c : ResultCode} (h : isDeviceFailure c = true) (s : State) :
    raise c s = (s.setResult c).setDcState .faulted := by simp [raise, h]

theorem guarded_none (s : State) (k : Host.Outcome State Fault Refusal) : guarded none s k = k := rfl

theorem guarded_some (c : ResultCode) (s : State) (k : Host.Outcome State Fault Refusal) :
    guarded (some c) s k = .next (raise c s) := rfl

theorem dcPrecheck_faulted {op : DcOp} {d : DcRegs} (h : d.state = .faulted) :
    dcPrecheck op d = some .deviceFaulted := by simp [dcPrecheck, h]

theorem dcPrecheck_init {d : DcRegs} (h : d.state ≠ .faulted) : dcPrecheck .init d = none := by
  simp [dcPrecheck, h]

theorem dcPrecheck_idle {op : DcOp} {d : DcRegs} (h : d.state = .idle) (hd : op ≠ .display) :
    dcPrecheck op d = none := by simp [dcPrecheck, h, hd]

theorem dcPrecheck_display {d : DcRegs} (h : d.state = .idle) (hl : d.frameLoaded = true) :
    dcPrecheck .display d = none := by simp [dcPrecheck, h, hl]

/-- The state check refuses an operation other than `dc.init`, or the controller is idle. -/
theorem dcPrecheck_cases {op : DcOp} (hop : op ≠ .init) (d : DcRegs) :
    (∃ c, dcPrecheck op d = some c ∧ isCallerError c = true) ∨
    (dcPrecheck op d = none ∧ d.state = .idle ∧ (op = .display → d.frameLoaded = true)) := by
  unfold dcPrecheck
  by_cases h1 : d.state = .faulted
  · exact .inl ⟨.deviceFaulted, by simp [h1], rfl⟩
  · by_cases h2 : d.state = .idle
    · by_cases h3 : op = .display ∧ d.frameLoaded = false
      · exact .inl ⟨.invalidState, by simp [h2, h3.1, h3.2], rfl⟩
      · refine .inr ⟨by simp [h2, hop, h3], h2, fun h => ?_⟩
        cases hl : d.frameLoaded with
        | true => rfl
        | false => exact absurd ⟨h, hl⟩ h3
    · exact .inl ⟨.invalidState, by simp [h1, hop, h2], rfl⟩

/-! ### An operation that runs is a sequence of transfers and an end -/

theorem sendSeq_singleton (t : Xfer) (s : State) : sendSeq [t] s = sendXfer t s := by
  show andThen (sendXfer t s) (sendSeq []) = _
  cases sendXfer t s <;> rfl

/-- The controller's registers after an operation that ends with `Ok` (R171 to R176). -/
def okRegs (d : DcRegs) : Instr → DcRegs
  | .dcLut sel => { d with activeLut := (lutSelOfWord sel).getD .none }
  | .dcClrf => { d with baseline := true }
  | .dcUpdate _ _ => { d with frameLoaded := true }
  | .dcPartial _ _ _ _ _ _ => { d with frameLoaded := true }
  | .dcSleep => { d with state := .sleeping }
  | .dcDisplay => d
  | .dcInit => d
  | .fbNew _ _ _ _ => d
  | .fbRot _ => d
  | .fbClear _ => d
  | .fbPix _ _ _ => d
  | .fbGet _ _ => d
  | .fbBytes => d

theorem setDcState_idle {s : State} (h : s.dcu.state = .idle) : s.setDcState .idle = s := by
  obtain ⟨a, b, c, d, e, f, ⟨g, g1, g2, g3⟩, i, j, k, l, m⟩ := s
  simp only at h
  subst h
  rfl

/-- Transfers that all succeed, under the end of the operation. -/
theorem orRaise_sent {ts : List Xfer} {s : State} {c : ResultCode} {k : State → State}
    (h : BusOk s.env (seqFrames s.cfg ts).length) :
    (sendSeq ts s).orRaise c k = k (sent s (seqFrames s.cfg ts)) := by rw [sendSeq_ok h]; rfl

/-- Transfers that stop at a failing write, under the end of the operation. -/
theorem orRaise_fails {ts : List Xfer} {s : State} {c : ResultCode} {k : State → State} {n : Nat}
    {f : Frame} (h : BusFailsAt s.env n) (hf : (seqFrames s.cfg ts)[n]? = some f) :
    (sendSeq ts s).orRaise c k = raise c (sentUpTo s (seqFrames s.cfg ts) n f) := by
  rw [sendSeq_fails h hf]; rfl

/-- The transient state and the operation's own end, as `exec` applies them to the transfers of an
operation that runs; `dc.display` also waits. -/
theorem exec_of_runs {i : Instr} {s : State} (h : Runs s i) (hd : i ≠ .dcDisplay) :
    ∃ (x : DcState) (k : State → State),
      exec i s = .next ((sendSeq (transfers s i) (s.setDcState x)).orRaise .cmdBusFault k) ∧
      ∀ u : State, u.dcu = { s.dcu with state := x } →
        k u = (u.setResult .ok).setDcu (okRegs s.dcu i) := by
  cases i with
  | dcLut sel =>
    obtain ⟨l, hl, -, ht⟩ := lutSelOfWord_lt h.2 s.cfg.pv
    refine ⟨.idle, fun s => done (s.setActiveLut l), ?_, fun u hu => ?_⟩
    · show execDcLut sel s = _
      rw [execDcLut, dcPrecheck_idle h.1 (by decide), guarded_none, hl, setDcState_idle h.1]
      simp only [transfers, ← ht, sendSeq_singleton]
    · have hr : okRegs s.dcu (.dcLut sel) = { s.dcu with activeLut := l } := by simp [okRegs, hl]
      rw [hr]
      have hs : s.dcu.state = .idle := h.1
      simp [done, State.setActiveLut, hu, State.setResult, State.setDcu, hs]
  | dcClrf =>
    have hs : s.dcu.state = .idle := h
    refine ⟨.updating, fun s => done ((s.setBaseline true).setDcState .idle), ?_, fun u hu => ?_⟩
    · show execDcClrf s = _
      rw [execDcClrf, dcPrecheck_idle hs (by decide), guarded_none]
      rfl
    · simp [done, State.setBaseline, State.setDcState, hu, okRegs, State.setResult, State.setDcu, hs]
  | dcUpdate addr len =>
    obtain ⟨hs, hl, hn⟩ := h
    refine ⟨.updating, transferDone, ?_, fun u hu => ?_⟩
    · show execDcUpdate addr len s = _
      rw [execDcUpdate, dcPrecheck_idle hs (by decide), guarded_none,
        if_neg (by rw [sliceLegal_iff.mpr hl]; decide), if_neg (by simp [hn]),
        State.readSlice_eq hl]
      simp only [onAccess, transfers, sendSeq_singleton]
    · simp [transferDone, done, State.setFrameLoaded, State.setDcState, hu, okRegs, State.setResult,
        State.setDcu, hs]
  | dcPartial addr len x y w h' =>
    obtain ⟨hs, hl, hn, hw⟩ := h
    refine ⟨.updating, transferDone, ?_, fun u hu => ?_⟩
    · show execDcPartial addr len x y w h' s = _
      rw [execDcPartial, dcPrecheck_idle hs (by decide), guarded_none,
        if_neg (by rw [sliceLegal_iff.mpr hl]; decide), if_neg (by simp [hn]),
        if_neg (by rw [windowValid_iff_fits.mpr hw]; decide),
        extract_eq (windowValid_iff_fits.mpr hw) (by omega)]
      rfl
    · simp [transferDone, done, State.setFrameLoaded, State.setDcState, hu, okRegs, State.setResult,
        State.setDcu, hs]
  | dcDisplay => exact absurd rfl hd
  | dcSleep =>
    have hs : s.dcu.state = .idle := h
    refine ⟨.idle, fun s => done (s.setDcState .sleeping), ?_, fun u hu => ?_⟩
    · show execDcSleep s = _
      rw [execDcSleep, dcPrecheck_idle hs (by decide), guarded_none, setDcState_idle hs]
      rfl
    · simp [done, State.setDcState, hu, okRegs, State.setResult, State.setDcu]
  | dcInit => exact absurd h id
  | fbNew _ _ _ _ => exact absurd h id
  | fbRot _ => exact absurd h id
  | fbClear _ => exact absurd h id
  | fbPix _ _ _ => exact absurd h id
  | fbGet _ _ => exact absurd h id
  | fbBytes => exact absurd h id

theorem execDcDisplay_of_runs {s : State} (h : Runs s .dcDisplay) :
    exec .dcDisplay s = .next ((sendSeq s.cfg.pv.refreshSeq (s.setDcState .displaying)).orRaise
      .cmdBusFault fun s => (busyWait s.cfg.busyMaxPolls s).orRaise .timeout fun s =>
        done (s.setDcState .idle)) := by
  show execDcDisplay s = _
  rw [execDcDisplay, dcPrecheck_display h.1 h.2, guarded_none]

theorem execDcInit_of_ne {s : State} (h : s.dcu.state ≠ .faulted) :
    exec .dcInit s = .next (initSequence s) := by
  show execDcInit s = _
  rw [execDcInit, dcPrecheck_init h, guarded_none]

/-- A controller operation other than `dc.init` is refused by one of its checks, or runs (R220 steps 2
to 5). -/
theorem refused_or_runs {i : Instr} (hi : isDc i = true) (hn : i ≠ .dcInit) (s : State) :
    (∃ c, isCallerError c = true ∧ exec i s = .next (s.setResult c)) ∨ Runs s i := by
  have key : ∀ (op : DcOp) (k : Host.Outcome State Fault Refusal), op ≠ .init →
      exec i s = guarded (dcPrecheck op s.dcu) s k →
      (∃ c, isCallerError c = true ∧ exec i s = .next (s.setResult c)) ∨
      (exec i s = k ∧ s.dcu.state = .idle ∧ (op = .display → s.dcu.frameLoaded = true)) := by
    intro op k hop he
    rcases dcPrecheck_cases hop s.dcu with ⟨c, hc, hr⟩ | ⟨hc, h⟩
    · exact .inl ⟨c, hr, by rw [he, hc, guarded_some, raise_callerError hr]⟩
    · exact .inr ⟨by rw [he, hc, guarded_none], h⟩
  cases i with
  | dcLut sel =>
    rcases key .lut _ (by decide) rfl with h | ⟨he, hs, -⟩
    · exact .inl h
    · by_cases hl : sel.toNat < 3
      · exact .inr ⟨hs, hl⟩
      · refine .inl ⟨.illegalOperation, rfl, ?_⟩
        rw [he, lutSelOfWord_eq_none.mpr (by omega)]; rfl
  | dcClrf =>
    rcases key .clrf _ (by decide) rfl with h | ⟨-, hs, -⟩
    · exact .inl h
    · exact .inr hs
  | dcUpdate addr len =>
    rcases key .update _ (by decide) rfl with h | ⟨he, hs, -⟩
    · exact .inl h
    · by_cases hl : sliceLegal s.cfg addr len = false
      · exact .inl ⟨.illegalOperation, rfl, by rw [he, if_pos hl]; rfl⟩
      · by_cases hn : len.toNat ≠ frameBytes s.cfg
        · exact .inl ⟨.sizeMismatch, rfl, by rw [he, if_neg hl, if_pos hn]; rfl⟩
        · exact .inr ⟨hs, sliceLegal_iff.mp (by simpa using hl), by simpa using hn⟩
  | dcPartial addr len x y w h' =>
    rcases key .partialUpdate _ (by decide) rfl with h | ⟨he, hs, -⟩
    · exact .inl h
    · by_cases hl : sliceLegal s.cfg addr len = false
      · exact .inl ⟨.illegalOperation, rfl, by rw [he, if_pos hl]; rfl⟩
      · by_cases hn : len.toNat ≠ frameBytes s.cfg
        · exact .inl ⟨.sizeMismatch, rfl, by rw [he, if_neg hl, if_pos hn]; rfl⟩
        · by_cases hw : windowValid s.cfg ⟨x.toNat, y.toNat, w.toNat, h'.toNat⟩ = false
          · exact .inl ⟨.invalidWindow, rfl,
              by rw [he, if_neg hl, if_neg hn, if_pos hw]; rfl⟩
          · exact .inr ⟨hs, sliceLegal_iff.mp (by simpa using hl), by simpa using hn,
              windowValid_iff_fits.mp (by simpa using hw)⟩
  | dcDisplay =>
    rcases key .display _ (by decide) rfl with h | ⟨-, hs, hl⟩
    · exact .inl h
    · exact .inr ⟨hs, hl rfl⟩
  | dcSleep =>
    rcases key .sleep _ (by decide) rfl with h | ⟨-, hs, -⟩
    · exact .inl h
    · exact .inr hs
  | dcInit => exact absurd rfl hn
  | fbNew _ _ _ _ => exact absurd hi Bool.false_ne_true
  | fbRot _ => exact absurd hi Bool.false_ne_true
  | fbClear _ => exact absurd hi Bool.false_ne_true
  | fbPix _ _ _ => exact absurd hi Bool.false_ne_true
  | fbGet _ _ => exact absurd hi Bool.false_ne_true
  | fbBytes => exact absurd hi Bool.false_ne_true

/-- Everything a running controller operation can do (R171 to R176, R204, R208, R221). -/
theorem runs_cases {i : Instr} {s : State} (h : Runs s i) :
    (BusOk s.env (opFrames s i).length ∧ i ≠ .dcDisplay ∧
      exec i s = .next
        (((sent s (opFrames s i)).setResult .ok).setDcu (okRegs s.dcu i))) ∨
    (BusOk s.env (opFrames s i).length ∧ i = .dcDisplay ∧
      ∃ k < s.cfg.busyMaxPolls, ReadyAt s.cfg s.env k ∧
        exec i s = .next ((waited (sent s (opFrames s i)) k).setResult .ok)) ∨
    (BusOk s.env (opFrames s i).length ∧ i = .dcDisplay ∧ NeverReady s.cfg s.env ∧
      exec i s = .next
        (((timedOut (sent s (opFrames s i))).setResult .timeout).setDcu { s.dcu with state := .faulted })) ∨
    ∃ k f, BusFailsAt s.env k ∧ (opFrames s i)[k]? = some f ∧
      exec i s = .next
        (((sentUpTo s (opFrames s i) k f).setResult .cmdBusFault).setDcu { s.dcu with state := .faulted }) := by
  by_cases hd : i = .dcDisplay
  · subst hd
    rw [execDcDisplay_of_runs h]
    rcases busOk_or_fails s.env (opFrames s .dcDisplay).length with hok | ⟨k, hk, hf⟩
    · rw [orRaise_sent (ts := s.cfg.pv.refreshSeq) (s := s.setDcState .displaying) hok]
      have hs : s.dcu.state = .idle := h.1
      rcases busyWait_cases (sent (s.setDcState .displaying) (opFrames s .dcDisplay)) with
        ⟨k, hk, hr, he⟩ | ⟨hn, he⟩
      · have hr' : ReadyAt s.cfg s.env k :=
          ⟨fun j hj => by simpa using hr.1 j hj, by simpa using hr.2⟩
        refine .inr (.inl ⟨hok, rfl, k, hk, hr', ?_⟩)
        show Host.Outcome.next ((busyWait s.cfg.busyMaxPolls
          (sent (s.setDcState .displaying) (opFrames s .dcDisplay))).orRaise _ _) = _
        rw [show busyWait s.cfg.busyMaxPolls
          (sent (s.setDcState .displaying) (opFrames s .dcDisplay)) = _ from he]
        obtain ⟨a, b, c, d, e, f, ⟨g, g1, g2, g3⟩, i, j, k, l, m⟩ := s
        simp only at hs
        subst hs
        rfl
      · have hn' : NeverReady s.cfg s.env := fun j hj => by simpa using hn j hj
        refine .inr (.inr (.inl ⟨hok, rfl, hn', ?_⟩))
        show Host.Outcome.next ((busyWait s.cfg.busyMaxPolls
          (sent (s.setDcState .displaying) (opFrames s .dcDisplay))).orRaise _ _) = _
        rw [show busyWait s.cfg.busyMaxPolls
          (sent (s.setDcState .displaying) (opFrames s .dcDisplay)) = _ from he]
        rfl
    · refine .inr (.inr (.inr ⟨k, _, hf, List.getElem?_eq_getElem hk, ?_⟩))
      rw [orRaise_fails (ts := s.cfg.pv.refreshSeq) (s := s.setDcState .displaying) hf (List.getElem?_eq_getElem hk)]
      rfl
  · obtain ⟨x, k, he, hk⟩ := exec_of_runs h hd
    rw [he]
    rcases busOk_or_fails s.env (opFrames s i).length with hok | ⟨n, hn, hf⟩
    · refine .inl ⟨hok, hd, ?_⟩
      rw [orRaise_sent (s := s.setDcState x) hok, hk _ rfl]
      rfl
    · refine .inr (.inr (.inr ⟨n, _, hf, List.getElem?_eq_getElem hn, ?_⟩))
      rw [orRaise_fails (s := s.setDcState x) hf (List.getElem?_eq_getElem hn)]
      rfl

/-- Everything `dc.init` can do outside `Faulted` (R170, R202, R203, R221). -/
theorem init_cases {s : State} (h : s.dcu.state ≠ .faulted) :
    (BusOk s.env ((initFrames s).length + (tableFrames s).length) ∧
      ∃ k < s.cfg.busyMaxPolls, ReadyAt s.cfg s.env k ∧
        exec .dcInit s = .next
          (((sent (waited (sent (pulsed s) (initFrames s)) k) (tableFrames s)).setResult .ok).setDcu ⟨.idle, .none, false, false⟩)) ∨
    (BusOk s.env (initFrames s).length ∧ NeverReady s.cfg s.env ∧
      exec .dcInit s = .next
        (((timedOut (sent (pulsed s) (initFrames s))).setResult .initTimeout).setDcu ⟨.faulted, .none, false, false⟩)) ∨
    (∃ k f, BusFailsAt s.env k ∧ (initFrames s)[k]? = some f ∧
      exec .dcInit s = .next
        (((sentUpTo (pulsed s) (initFrames s) k f).setResult .initBusFault).setDcu ⟨.faulted, .none, false, false⟩)) ∨
    ∃ k f, BusFailsAt s.env ((initFrames s).length + k) ∧ (tableFrames s)[k]? = some f ∧
      ∃ j < s.cfg.busyMaxPolls, ReadyAt s.cfg s.env j ∧
      exec .dcInit s = .next
        (((sentUpTo (waited (sent (pulsed s) (initFrames s)) j) (tableFrames s) k f).setResult .initBusFault).setDcu ⟨.faulted, .none, false, false⟩) := by
  rw [execDcInit_of_ne h, initSequence, hardwareReset_eq]
  generalize hu : pulsed (s.setDcu ⟨.initializing, .none, false, false⟩) = u
  have hue : u.env = s.env := by subst hu; rfl
  have huc : u.cfg = s.cfg := by subst hu; rfl
  have hfr : seqFrames u.cfg s.cfg.pv.initSeq = initFrames s := by rw [huc]; rfl
  rcases sendSeq_cases s.cfg.pv.initSeq u with ⟨hok, he⟩ | ⟨k, f, hf, hfk, he⟩
  · rw [he]
    rw [hfr] at hok ⊢
    simp only [SendEnd.orRaise]
    generalize hv : sent u (initFrames s) = v
    have hve : v.env = envAfter s.env (initFrames s).length 0 := by subst hv; simp [hue]
    have hvc : v.cfg = s.cfg := by subst hv; exact huc
    rw [hue] at hok
    have hb := busyWait_cases v
    rw [hvc] at hb
    have hready : ∀ k, ReadyAt s.cfg v.env k → ReadyAt s.cfg s.env k := fun k hr =>
      ⟨fun j hj => by simpa [hve] using hr.1 j hj, by simpa [hve] using hr.2⟩
    rcases hb with ⟨j, hj, hr, he⟩ | ⟨hn, he⟩
    · rw [show v.cfg.busyMaxPolls = s.cfg.busyMaxPolls by rw [hvc], he]
      simp only [WaitEnd.orRaise]
      have htf : xferFrames (waited v j).cfg ⟨s.cfg.pv.lutCmd, lutTable s.cfg.pv .none⟩ =
          tableFrames s := by rw [waited_cfg, hvc]; rfl
      have hwe : ∀ n, busAt (waited v j).env n = busAt s.env ((initFrames s).length + n) := fun n => by
        rw [waited_env, busAt_envAfter, hve, busAt_envAfter, Nat.zero_add]
      rcases sendXfer_cases ⟨s.cfg.pv.lutCmd, lutTable s.cfg.pv .none⟩ (waited v j) with
        ⟨hok2, he2⟩ | ⟨k, f, hf, hfk, he2⟩
      · rw [he2]
        rw [htf] at hok2 ⊢
        refine .inl ⟨fun n hn => ?_, j, hj, hready j hr, ?_⟩
        · by_cases hlt : n < (initFrames s).length
          · exact hok n hlt
          · have := hok2 (n - (initFrames s).length) (by omega)
            rw [hwe, Nat.add_sub_cancel' (by omega)] at this
            exact this
        · subst hv hu; rfl
      · rw [he2]
        rw [htf] at hfk ⊢
        refine .inr (.inr (.inr ⟨k, f, ⟨fun n hn => ?_, ?_⟩, hfk, j, hj, hready j hr, ?_⟩))
        · by_cases hlt : n < (initFrames s).length
          · exact hok n hlt
          · have := hf.1 (n - (initFrames s).length) (by omega)
            rw [hwe, Nat.add_sub_cancel' (by omega)] at this
            exact this
        · rw [← hwe]; exact hf.2
        · subst hv hu; rfl
    · rw [show v.cfg.busyMaxPolls = s.cfg.busyMaxPolls by rw [hvc], he]
      refine .inr (.inl ⟨hok, fun j hj => by simpa [hve] using hn j hj, ?_⟩)
      subst hv hu
      rfl
  · rw [he]
    rw [hfr] at hfk ⊢
    rw [hue] at hf
    refine .inr (.inr (.inl ⟨k, f, hf, hfk, ?_⟩))
    subst hu
    rfl

/-- Everything a controller operation answers with a next state: it is refused, it is one of the six
that need an idle controller and runs, or it is `dc.init` and runs. -/
theorem dc_cases {i : Instr} {s t : State} (hi : isDc i = true) (h : exec i s = .next t) :
    (∃ c, isCallerError c = true ∧ t = s.setResult c) ∨
    (i ≠ .dcInit ∧ Runs s i ∧
      ((BusOk s.env (opFrames s i).length ∧ i ≠ .dcDisplay ∧
          t = ((sent s (opFrames s i)).setResult .ok).setDcu (okRegs s.dcu i)) ∨
       (BusOk s.env (opFrames s i).length ∧ i = .dcDisplay ∧
          ∃ k < s.cfg.busyMaxPolls, ReadyAt s.cfg s.env k ∧
            t = (waited (sent s (opFrames s i)) k).setResult .ok) ∨
       (BusOk s.env (opFrames s i).length ∧ i = .dcDisplay ∧ NeverReady s.cfg s.env ∧
          t = ((timedOut (sent s (opFrames s i))).setResult .timeout).setDcu { s.dcu with state := .faulted }) ∨
       ∃ k f, BusFailsAt s.env k ∧ (opFrames s i)[k]? = some f ∧
          t = ((sentUpTo s (opFrames s i) k f).setResult .cmdBusFault).setDcu { s.dcu with state := .faulted })) ∨
    (i = .dcInit ∧ s.dcu.state ≠ .faulted ∧
      ((BusOk s.env ((initFrames s).length + (tableFrames s).length) ∧
          ∃ k < s.cfg.busyMaxPolls, ReadyAt s.cfg s.env k ∧
            t = ((sent (waited (sent (pulsed s) (initFrames s)) k) (tableFrames s)).setResult .ok).setDcu ⟨.idle, .none, false, false⟩) ∨
       (BusOk s.env (initFrames s).length ∧ NeverReady s.cfg s.env ∧
          t = ((timedOut (sent (pulsed s) (initFrames s))).setResult .initTimeout).setDcu ⟨.faulted, .none, false, false⟩) ∨
       (∃ k f, BusFailsAt s.env k ∧ (initFrames s)[k]? = some f ∧
          t = ((sentUpTo (pulsed s) (initFrames s) k f).setResult .initBusFault).setDcu ⟨.faulted, .none, false, false⟩) ∨
       ∃ k f, BusFailsAt s.env ((initFrames s).length + k) ∧ (tableFrames s)[k]? = some f ∧
          ∃ j < s.cfg.busyMaxPolls, ReadyAt s.cfg s.env j ∧
          t = ((sentUpTo (waited (sent (pulsed s) (initFrames s)) j) (tableFrames s) k f).setResult .initBusFault).setDcu ⟨.faulted, .none, false, false⟩)) := by
  by_cases hn : i = .dcInit
  · subst hn
    by_cases hf : s.dcu.state = .faulted
    · have he : exec .dcInit s = .next (s.setResult .deviceFaulted) := by
        show guarded (dcPrecheck .init s.dcu) s _ = _
        rw [dcPrecheck_faulted hf]; rfl
      rw [he] at h; cases h
      exact .inl ⟨_, rfl, rfl⟩
    · refine .inr (.inr ⟨rfl, hf, ?_⟩)
      rcases init_cases hf with ⟨h1,k,h2,h3,he⟩ | ⟨h1,h2,he⟩ | ⟨k,f,h1,h2,he⟩ | ⟨k,f,h1,h2,j,h3,h4,he⟩
      · exact .inl ⟨h1,k,h2,h3,Host.Outcome.next.inj (h.symm.trans he)⟩
      · exact .inr (.inl ⟨h1,h2,Host.Outcome.next.inj (h.symm.trans he)⟩)
      · exact .inr (.inr (.inl ⟨k,f,h1,h2,Host.Outcome.next.inj (h.symm.trans he)⟩))
      · exact .inr (.inr (.inr ⟨k,f,h1,h2,j,h3,h4,Host.Outcome.next.inj (h.symm.trans he)⟩))
  · rcases refused_or_runs hi hn s with ⟨c, hc, he⟩ | hr
    · exact .inl ⟨c, hc, Host.Outcome.next.inj (h.symm.trans he)⟩
    · refine .inr (.inl ⟨hn, hr, ?_⟩)
      rcases runs_cases hr with ⟨h1,h2,he⟩ | ⟨h1,h2,k,h3,h4,he⟩ | ⟨h1,h2,h3,he⟩ | ⟨k,f,h1,h2,he⟩
      · exact .inl ⟨h1,h2,Host.Outcome.next.inj (h.symm.trans he)⟩
      · exact .inr (.inl ⟨h1,h2,k,h3,h4,Host.Outcome.next.inj (h.symm.trans he)⟩)
      · exact .inr (.inr (.inl ⟨h1,h2,h3,Host.Outcome.next.inj (h.symm.trans he)⟩))
      · exact .inr (.inr (.inr ⟨k,f,h1,h2,Host.Outcome.next.inj (h.symm.trans he)⟩))

theorem isFb_or_isDc (i : Instr) : isFb i = true ∨ isDc i = true := by
  unfold isDc
  cases isFb i <;> simp

theorem Runs.idle {i : Instr} {s : State} (h : Runs s i) : s.dcu.state = .idle := by
  cases i <;> first | exact h | exact h.1 | exact h.elim

theorem okRegs_state {d : DcRegs} {i : Instr} (h : i ≠ .dcSleep) : (okRegs d i).state = d.state := by
  cases i <;> first | rfl | exact absurd rfl h

end Sys2Proof.Machine
end

