-- ==== Sys2Proof/Laws/Framebuffer.lean ====
section
/-! SUPPORT. Everything a framebuffer operation can do, said once: which state it answers, and that it
stops only where the framebuffer's region leaves frame memory, which the invariant R27 rules out. -/

namespace Sys2Proof.Machine

theorem fbPrecheck_valid {fb : FbRegs} (h : fb.valid = true) : fbPrecheck fb = none := by
  simp [fbPrecheck, h]

theorem fbPrecheck_invalid {fb : FbRegs} (h : fb.valid = false) :
    fbPrecheck fb = some .invalidState := by simp [fbPrecheck, h]

/-- The state check of a framebuffer operation other than `fb.new`: refused, or valid. -/
theorem fbPrecheck_cases (s : State) (k : Host.Outcome State Fault Refusal) :
    (s.fb.valid = false ∧ guarded (fbPrecheck s.fb) s k = .next (s.setResult .invalidState)) ∨
    (s.fb.valid = true ∧ guarded (fbPrecheck s.fb) s k = k) := by
  cases h : s.fb.valid with
  | false => exact .inl ⟨rfl, by rw [fbPrecheck_invalid h, guarded_some]; rfl⟩
  | true => exact .inr ⟨rfl, by rw [fbPrecheck_valid h, guarded_none]⟩

/-- An accepted point lies in the bitmap (R117). -/
theorem locate_in_bitmap {p : Params} {fb : FbRegs} {x y a : Nat} {mask : Byte} (hi : FbInv p fb)
    (hv : fb.valid = true) (h : locate fb x y = some (a, mask)) : InBitmap fb a := by
  obtain ⟨-, -, hx, hy, ha, -⟩ := locate_eq_some.mp h
  have := byteIndex_lt (hi.widthMultiple hv) hx hy
  have hl := hi.lenIsArea hv
  exact ⟨by omega, by omega⟩

theorem inBitmap_lt {p : Params} {fb : FbRegs} {a : Nat} (hi : FbInv p fb) (hv : fb.valid = true)
    (h : InBitmap fb a) : a < p.memBytes := by
  have := hi.inMemory hv
  have := h.2
  omega

/-- What `fb.pix` does on a pixel that `Locate` accepts. -/
theorem execFbPix_some {s : State} {x y color : Word} {c : Color} {a : Nat} {mask : Byte}
    (hv : s.fb.valid = true) (hc : colorOfWord color = some c)
    (hl : locate s.fb x.toNat y.toNat = some (a, mask)) (ha : a < s.cfg.memBytes) :
    exec (.fbPix x y color) s = .next
      ((s.setMem (Memory.write s.mem a (paint c (Memory.read s.mem a) mask))).setResult .ok) := by
  show execFbPix x y color s = _
  simp only [execFbPix, fbPrecheck_valid hv, guarded_none, hc, hl, State.load_eq_some ha,
    State.store_eq_some ha, onAccess]
  rfl

/-- What `fb.pix` does on a pixel that `Locate` rejects. -/
theorem execFbPix_none {s : State} {x y color : Word} {c : Color} (hv : s.fb.valid = true)
    (hc : colorOfWord color = some c) (hl : locate s.fb x.toNat y.toNat = none) :
    exec (.fbPix x y color) s = .next (s.setResult .ok) := by
  show execFbPix x y color s = _
  simp only [execFbPix, fbPrecheck_valid hv, guarded_none, hc, hl]
  rfl

/-- What `fb.get` does on a pixel that `Locate` accepts. -/
theorem execFbGet_some {s : State} {x y : Word} {a : Nat} {mask : Byte} (hv : s.fb.valid = true)
    (hl : locate s.fb x.toNat y.toNat = some (a, mask)) (ha : a < s.cfg.memBytes) :
    exec (.fbGet x y) s = .next
      ((s.setRet0 (pixelValue (Memory.read s.mem a) mask)).setResult .ok) := by
  show execFbGet x y s = _
  simp only [execFbGet, fbPrecheck_valid hv, guarded_none, hl, State.load_eq_some ha, onAccess]
  rfl

/-- What `fb.get` does on a pixel that `Locate` rejects. -/
theorem execFbGet_none {s : State} {x y : Word} (hv : s.fb.valid = true)
    (hl : locate s.fb x.toNat y.toNat = none) :
    exec (.fbGet x y) s = .next ((s.setRet0 noPixel).setResult .ok) := by
  show execFbGet x y s = _
  simp only [execFbGet, fbPrecheck_valid hv, guarded_none, hl]
  rfl

/-- What `fb.clear` does: it fills the bitmap, and keeps the memory's form. -/
theorem execFbClear_some {s : State} {color : Word} {c : Color} (hi : FbInv s.cfg s.fb)
    (hm : Memory.wf s.mem = true) (hv : s.fb.valid = true) (hc : colorOfWord color = some c) :
    ∃ m, exec (.fbClear color) s = .next ((s.setMem m).setResult .ok) ∧ Memory.wf m = true ∧
      (∀ a, InBitmap s.fb a → Memory.read m a = colorByte c) ∧
      ∀ a, ¬ InBitmap s.fb a → Memory.read m a = Memory.read s.mem a := by
  obtain ⟨m, he, hw, hr⟩ := State.fill_spec (v := colorByte c) (hi.inMemory hv) hm
  refine ⟨m, ?_, hw, fun a ha => ?_, fun a ha => ?_⟩
  · show execFbClear color s = _
    simp only [execFbClear, fbPrecheck_valid hv, guarded_none, hc, he, onAccess]
    rfl
  · rw [hr]; exact if_pos ha
  · rw [hr]; exact if_neg ha

/-- Everything a framebuffer operation answers with a next state (R110 to R115, R118). -/
theorem fb_cases {i : Instr} {s t : State} (hi : isFb i = true) (h : exec i s = .next t) :
    ((t.result = .invalidState ∨ t.result = .illegalOperation ∨ t.result = .sizeMismatch) ∧
      t = s.setResult t.result) ∨
    (∃ w ht b l, i = .fbNew w ht b l ∧ w.toNat % 8 = 0 ∧ b.toNat + l.toNat ≤ s.cfg.memBytes ∧
      l.toNat = w.toNat / 8 * ht.toNat ∧
      t = (s.setFb ⟨true, w, ht, .rotate0, b, l⟩).setResult .ok) ∨
    (∃ r rot, i = .fbRot r ∧ s.fb.valid = true ∧ rotationOfWord r = some rot ∧
      t = (s.setFb { s.fb with rot := rot }).setResult .ok) ∨
    (∃ color c m, i = .fbClear color ∧ s.fb.valid = true ∧ colorOfWord color = some c ∧
      State.fill (colorByte c) s.fb.base.toNat s.fb.len.toNat s = some (s.setMem m) ∧
      t = (s.setMem m).setResult .ok) ∨
    (∃ x y color c, i = .fbPix x y color ∧ s.fb.valid = true ∧ colorOfWord color = some c ∧
      ((locate s.fb x.toNat y.toNat = none ∧ t = s.setResult .ok) ∨
       ∃ a mask, locate s.fb x.toNat y.toNat = some (a, mask) ∧ a < s.cfg.memBytes ∧
        t = (s.setMem (Memory.write s.mem a (paint c (Memory.read s.mem a) mask))).setResult .ok)) ∨
    (∃ x y v, i = .fbGet x y ∧ s.fb.valid = true ∧ t = (s.setRet0 v).setResult .ok) ∨
    (i = .fbBytes ∧ s.fb.valid = true ∧
      t = ((s.setRet0 s.fb.base).setRet1 s.fb.len).setResult .ok) := by
  cases i with
  | fbNew w ht b l =>
    have h : Host.Outcome.next _ = Host.Outcome.next t := h
    simp only [Host.Outcome.next.injEq] at h
    by_cases h1 : w.toNat % 8 ≠ 0
    · rw [if_pos h1] at h
      exact .inl ⟨.inr (.inl (by rw [← h]; rfl)), by rw [← h]; rfl⟩
    · rw [if_neg h1] at h
      by_cases h2 : sliceLegal s.cfg b l = false
      · rw [if_pos h2] at h
        exact .inl ⟨.inr (.inl (by rw [← h]; rfl)), by rw [← h]; rfl⟩
      · rw [if_neg h2] at h
        by_cases h3 : l.toNat ≠ w.toNat / 8 * ht.toNat
        · rw [if_pos h3] at h
          exact .inl ⟨.inr (.inr (by rw [← h]; rfl)), by rw [← h]; rfl⟩
        · rw [if_neg h3] at h
          exact .inr (.inl ⟨w, ht, b, l, rfl, by simpa using h1,
            sliceLegal_iff.mp (by simpa using h2), by simpa using h3, h.symm⟩)
  | fbRot r =>
    rcases fbPrecheck_cases s (.next (match rotationOfWord r with
      | none => raise .illegalOperation s
      | some rot => done (s.setFb { s.fb with rot := rot }))) with ⟨hv, he⟩ | ⟨hv, he⟩
    · have ht := he.symm.trans h
      simp only [Host.Outcome.next.injEq] at ht
      exact .inl ⟨.inl (by rw [← ht]; rfl), by rw [← ht]; rfl⟩
    · have ht := he.symm.trans h
      simp only [Host.Outcome.next.injEq] at ht
      cases hr : rotationOfWord r with
      | none =>
        rw [hr] at ht
        exact .inl ⟨.inr (.inl (by rw [← ht]; rfl)), by rw [← ht]; rfl⟩
      | some rot =>
        rw [hr] at ht
        exact .inr (.inr (.inl ⟨r, rot, rfl, hv, hr, ht.symm⟩))
  | fbClear color =>
    rcases fbPrecheck_cases s (match colorOfWord color with
      | none => .next (raise .illegalOperation s)
      | some c => onAccess (State.fill (colorByte c) s.fb.base.toNat s.fb.len.toNat s)
          fun s' => .next (done s')) with ⟨hv, he⟩ | ⟨hv, he⟩
    · have ht := he.symm.trans h
      simp only [Host.Outcome.next.injEq] at ht
      exact .inl ⟨.inl (by rw [← ht]; rfl), by rw [← ht]; rfl⟩
    · have ht := he.symm.trans h
      cases hc : colorOfWord color with
      | none =>
        rw [hc] at ht
        simp only [Host.Outcome.next.injEq] at ht
        exact .inl ⟨.inr (.inl (by rw [← ht]; rfl)), by rw [← ht]; rfl⟩
      | some c =>
        rw [hc] at ht
        simp only at ht
        cases hf : State.fill (colorByte c) s.fb.base.toNat s.fb.len.toNat s with
        | none => rw [hf] at ht; exact absurd ht (by simp [onAccess])
        | some u =>
          rw [hf] at ht
          simp only [onAccess, Host.Outcome.next.injEq] at ht
          obtain ⟨m, hu, -⟩ := State.fill_keeps hf
          subst hu
          exact .inr (.inr (.inr (.inl ⟨color, c, m, rfl, hv, hc, hf, ht.symm⟩)))
  | fbPix x y color =>
    rcases fbPrecheck_cases s (match colorOfWord color with
      | none => .next (raise .illegalOperation s)
      | some c =>
        match locate s.fb x.toNat y.toNat with
        | none => .next (done s)
        | some (a, mask) => onAccess (s.load a) fun b =>
            onAccess (s.store a (paint c b mask)) fun s' => .next (done s'))
      with ⟨hv, he⟩ | ⟨hv, he⟩
    · have ht := he.symm.trans h
      simp only [Host.Outcome.next.injEq] at ht
      exact .inl ⟨.inl (by rw [← ht]; rfl), by rw [← ht]; rfl⟩
    · have ht := he.symm.trans h
      cases hc : colorOfWord color with
      | none =>
        rw [hc] at ht
        simp only [Host.Outcome.next.injEq] at ht
        exact .inl ⟨.inr (.inl (by rw [← ht]; rfl)), by rw [← ht]; rfl⟩
      | some c =>
        refine .inr (.inr (.inr (.inr (.inl ⟨x, y, color, c, rfl, hv, hc, ?_⟩))))
        cases hl : locate s.fb x.toNat y.toNat with
        | none =>
          rw [execFbPix_none hv hc hl] at h
          simp only [Host.Outcome.next.injEq] at h
          exact .inl ⟨rfl, h.symm⟩
        | some p =>
          obtain ⟨a, mask⟩ := p
          by_cases ha : a < s.cfg.memBytes
          · rw [execFbPix_some hv hc hl ha] at h
            simp only [Host.Outcome.next.injEq] at h
            exact .inr ⟨a, mask, rfl, ha, h.symm⟩
          · rw [hc] at ht
            simp [hl, State.load, ha, onAccess] at ht
  | fbGet x y =>
    rcases fbPrecheck_cases s (match locate s.fb x.toNat y.toNat with
      | none => .next (done (s.setRet0 noPixel))
      | some (a, mask) => onAccess (s.load a) fun b => .next (done (s.setRet0 (pixelValue b mask))))
      with ⟨hv, he⟩ | ⟨hv, he⟩
    · have ht := he.symm.trans h
      simp only [Host.Outcome.next.injEq] at ht
      exact .inl ⟨.inl (by rw [← ht]; rfl), by rw [← ht]; rfl⟩
    · refine .inr (.inr (.inr (.inr (.inr (.inl ?_)))))
      cases hl : locate s.fb x.toNat y.toNat with
      | none =>
        rw [execFbGet_none hv hl] at h
        simp only [Host.Outcome.next.injEq] at h
        exact ⟨x, y, _, rfl, hv, h.symm⟩
      | some p =>
        obtain ⟨a, mask⟩ := p
        by_cases ha : a < s.cfg.memBytes
        · rw [execFbGet_some hv hl ha] at h
          simp only [Host.Outcome.next.injEq] at h
          exact ⟨x, y, _, rfl, hv, h.symm⟩
        · have ht := he.symm.trans h
          simp [hl, State.load, ha, onAccess] at ht
  | fbBytes =>
    rcases fbPrecheck_cases s (.next (done ((s.setRet0 s.fb.base).setRet1 s.fb.len))) with
      ⟨hv, he⟩ | ⟨hv, he⟩
    · have ht := he.symm.trans h
      simp only [Host.Outcome.next.injEq] at ht
      exact .inl ⟨.inl (by rw [← ht]; rfl), by rw [← ht]; rfl⟩
    · have ht := he.symm.trans h
      simp only [Host.Outcome.next.injEq] at ht
      exact .inr (.inr (.inr (.inr (.inr (.inr ⟨rfl, hv, ht.symm⟩)))))
  | dcInit => exact absurd hi Bool.false_ne_true
  | dcLut _ => exact absurd hi Bool.false_ne_true
  | dcClrf => exact absurd hi Bool.false_ne_true
  | dcUpdate _ _ => exact absurd hi Bool.false_ne_true
  | dcPartial _ _ _ _ _ _ => exact absurd hi Bool.false_ne_true
  | dcDisplay => exact absurd hi Bool.false_ne_true
  | dcSleep => exact absurd hi Bool.false_ne_true

end Sys2Proof.Machine
end

