-- ==== Sys2Proof/Laws/PerInstr.lean ====
section
/-! SUPPORT. Facts about every instruction as syntax, one lemma per constructor. -/

/-- The words the assembler writes (R80, R88): OPW0 is the opcode with the reserved bits 0, the operands
stand from OPW1 on, and every word after them is 0. -/
def Sys2Proof.Laws.EncodedWords.Statement (i : Sys2Proof.Instr) : Prop :=
  (Sys2Proof.encode i).rsv = 0 ∧ (Sys2Proof.encode i).opc = i.opcode ∧
  (Sys2Proof.encode i).operandWords =
    i.operands ++ List.replicate (6 - i.operands.length) 0

namespace Sys2Proof.Laws.EncodedWords

/-- A zero-extended byte has no reserved bit set. -/
theorem encode_rsv (i : Instr) : (encode i).rsv = 0 := by
  show (i.opcode.setWidth 32).extractLsb' 8 24 = 0
  ext k hk
  simp

/-- The low byte of a zero-extended byte is the byte. -/
theorem encode_opc (i : Instr) : (encode i).opc = i.opcode := by
  show (i.opcode.setWidth 32).extractLsb' 0 8 = i.opcode
  ext k hk
  simp [hk]
  omega

theorem fbNew (width height base len : Word) : Statement (.fbNew width height base len) := ⟨encode_rsv _, encode_opc _, rfl⟩
theorem fbRot (r : Word) : Statement (.fbRot r) := ⟨encode_rsv _, encode_opc _, rfl⟩
theorem fbClear (color : Word) : Statement (.fbClear color) := ⟨encode_rsv _, encode_opc _, rfl⟩
theorem fbPix (x y color : Word) : Statement (.fbPix x y color) := ⟨encode_rsv _, encode_opc _, rfl⟩
theorem fbGet (x y : Word) : Statement (.fbGet x y) := ⟨encode_rsv _, encode_opc _, rfl⟩
theorem fbBytes : Statement .fbBytes := ⟨encode_rsv _, encode_opc _, rfl⟩
theorem dcInit : Statement .dcInit := ⟨encode_rsv _, encode_opc _, rfl⟩
theorem dcLut (sel : Word) : Statement (.dcLut sel) := ⟨encode_rsv _, encode_opc _, rfl⟩
theorem dcClrf : Statement .dcClrf := ⟨encode_rsv _, encode_opc _, rfl⟩
theorem dcUpdate (addr len : Word) : Statement (.dcUpdate addr len) := ⟨encode_rsv _, encode_opc _, rfl⟩
theorem dcPartial (addr len x y w h : Word) : Statement (.dcPartial addr len x y w h) := ⟨encode_rsv _, encode_opc _, rfl⟩
theorem dcDisplay : Statement .dcDisplay := ⟨encode_rsv _, encode_opc _, rfl⟩
theorem dcSleep : Statement .dcSleep := ⟨encode_rsv _, encode_opc _, rfl⟩

end Sys2Proof.Laws.EncodedWords
end

