-- ==== Sys2Proof/Laws/Step.lean ====
section
/-! SUPPORT. What a step is for each move of the host, said once, and how a run takes a step. -/

namespace Sys2Proof.Machine

theorem step_idle {s : State} (h : s.host = []) : step s = .next s := by
  show nextMove s = _
  rw [nextMove, h]

theorem step_move {s : State} {m : HostMove} {rest : List HostMove} (h : s.host = m :: rest) :
    step s = hostMove m (s.setHost rest) := by
  show nextMove s = _
  rw [nextMove, h]

theorem step_store {s : State} {a : Nat} {v : Byte} {rest : List HostMove}
    (h : s.host = .store a v :: rest) :
    step s = if a < s.cfg.memBytes then .next ((s.setHost rest).setMem (Memory.write s.mem a v))
      else .fault .noSuchAddress := by
  rw [step_move h]
  show onAccess ((s.setHost rest).store a v) .next = _
  by_cases ha : a < s.cfg.memBytes
  · rw [State.store_eq_some (by exact ha), if_pos ha]; rfl
  · rw [if_neg ha]; simp [State.store, ha, onAccess]

theorem runDescriptor_ok {s : State} {i : Instr} (h : decode s.opw = .ok i) :
    runDescriptor s = exec i s := by rw [runDescriptor, h]

theorem runDescriptor_error {s : State} {e : DecodeReject} (h : decode s.opw = .error e) :
    runDescriptor s = .next (s.setResult .illegalOperation) := by rw [runDescriptor, h]; rfl

/-- What GO starts: an operation, or nothing but the result code (R84). -/
theorem runDescriptor_cases (s : State) :
    (∃ i, decode s.opw = .ok i ∧ runDescriptor s = exec i s) ∨
    (∃ e, decode s.opw = .error e ∧ runDescriptor s = .next (s.setResult .illegalOperation)) := by
  cases h : decode s.opw with
  | ok i => exact .inl ⟨i, rfl, runDescriptor_ok h⟩
  | error e => exact .inr ⟨e, rfl, runDescriptor_error h⟩

/-- How a run of any machine takes one step. -/
theorem core_run_succ (M : Host.Core) (n : Nat) (s : M.State) :
    M.run (n + 1) s = match M.step s with
      | .next t => M.run n t
      | .fault r => .fault r
      | .refused r => .refused r := rfl

theorem core_run_next (M : Host.Core) {s t : M.State} (h : M.step s = .next t) (n : Nat) :
    M.run (n + 1) s = M.run n t := by rw [core_run_succ, h]

theorem core_run_one (M : Host.Core) (s : M.State) : M.run 1 s = M.step s := by
  rw [core_run_succ]
  cases M.step s <;> rfl

theorem core_run_succ_cases (M : Host.Core) {n : Nat} {s u : M.State} (h : M.run (n + 1) s = .next u) :
    ∃ t, M.step s = .next t ∧ M.run n t = .next u := by
  rw [core_run_succ] at h
  cases hs : M.step s with
  | next t => rw [hs] at h; exact ⟨t, rfl, h⟩
  | fault r => rw [hs] at h; exact nomatch h
  | refused r => rw [hs] at h; exact nomatch h

theorem run_zero (s : State) : Host.Core.run Sys2Proof.core 0 s = .next s := rfl

theorem run_next {s t : State} (h : step s = .next t) (n : Nat) :
    Host.Core.run Sys2Proof.core (n + 1) s = Host.Core.run Sys2Proof.core n t :=
  core_run_next Sys2Proof.core h n

theorem run_one (s : State) : Host.Core.run Sys2Proof.core 1 s = step s :=
  core_run_one Sys2Proof.core s

/-- A run of `n + 1` steps that answers a next state took a step to a next state and a run of `n`
steps from there. -/
theorem run_succ_cases {n : Nat} {s u : State} (h : Host.Core.run Sys2Proof.core (n + 1) s = .next u) :
    ∃ t, step s = .next t ∧ Host.Core.run Sys2Proof.core n t = .next u :=
  core_run_succ_cases Sys2Proof.core h

end Sys2Proof.Machine
end

