-- ==== Sys2Proof/Tests/Slice0.lean ====
section
/-! SUPPORT. The model's own tests. Expected values come from spec/95_test_vectors.md (V and P numbers
in the docstrings) or are words written out from the encodings of R80, R81 and R85. The second half
shows, for each statement with hypotheses, a concrete state and operands that meet them. -/

namespace Sys2Proof.Tests

open Sys2Proof.Machine

/-! ### A small machine -/

/-- `PV_TINY` of spec/95_test_vectors.md section 1, with the two windows the tests use. -/
def tiny : Params where
  memBytes := 64
  devWidth := 16
  devHeight := 16
  granX := 8
  granY := 8
  busyActive := .high
  dcCmdLevel := .low
  csActive := .low
  rstLowMs := 10
  rstHighMs := 10
  pollIntervalMs := 10
  busyMaxPolls := 3
  pv :=
    { initSeq := [⟨0xA0, [0x01, 0x02]⟩, ⟨0xA1, []⟩]
      lutCmd := 0xB0
      lutDefault := [0xD0, 0xD1, 0xD2, 0xD3]
      lutFull := [0xF0, 0xF1, 0xF2, 0xF3]
      lutQuick := [0x51, 0x52, 0x53, 0x54]
      writeOldCmd := 0xC0
      writeNewCmd := 0xC1
      windowTable :=
        [(⟨8, 8, 8, 8⟩, [⟨0xC4, [1, 1]⟩, ⟨0xC5, [0, 8, 0, 15]⟩]),
         (⟨0, 0, 8, 8⟩, [⟨0xC4, [0, 0]⟩, ⟨0xC5, [0, 0, 0, 7]⟩])]
      refreshSeq := [⟨0xE0, []⟩]
      sleepSeq := [⟨0xE1, [0x01]⟩]
      clearByte := 0xFF }

/-- The same with the busy level of the other polarity. -/
def tinyLow : Params := { tiny with busyActive := .low }

/-- A machine on `PV_TINY` with nothing in memory. -/
def machine (fb : FbRegs) (dcu : DcRegs) (bus : List Bool) (busy : List Level) : State where
  cfg     := tiny
  opw     := ⟨0, 0, 0, 0, 0, 0, 0⟩
  result  := .noResult
  ret0    := 7
  ret1    := 9
  fb      := fb
  dcu     := dcu
  lines   := ⟨.high, .high, .high⟩
  mem     := []
  history := [.reset]
  host    := []
  env     := ⟨bus, busy, 0, 0, 0⟩

/-- No framebuffer. -/
def noFb : FbRegs := ⟨false, 0, 0, .rotate0, 0, 0⟩

/-- `fb.new 16, 16, 0, 32` under a rotation. -/
def square (r : Rotation) : FbRegs := ⟨true, 16, 16, r, 0, 32⟩

/-- The controller's registers in a state, flags and waveform at reset. -/
def dcIn (x : DcState) : DcRegs := ⟨x, .none, false, false⟩

/-- An idle controller with a frame loaded, a baseline and the full waveform. -/
def dcLoaded : DcRegs := ⟨.idle, .full, true, true⟩

/-- A bitmap under a rotation, controller uninitialised. -/
def withFb (r : Rotation) : State := machine (square r) (dcIn .uninit) [] []

/-- The controller in a state, no framebuffer, `n` successful bus answers to come. -/
def withDc (x : DcState) (n : Nat) : State := machine noFb (dcIn x) (List.replicate n true) []

/-- 32 bytes of one value from address 0 on. -/
def bytes32 (v : Byte) : Memory := (List.range 32).map fun a => (a, v)

/-- The bytes 0 to 31 from address 0 on (V60). -/
def ramp : Memory := (List.range 32).map fun a => (a, BitVec.ofNat 8 a)

/-- The next state, where there is one. -/
def answer : Host.Outcome State Fault Refusal → Option State
  | .next s => some s
  | .fault _ => none
  | .refused _ => none

/-- The result, the return words and the bitmap registers after an operation. -/
def fbView (i : Instr) (s : State) : Option (ResultCode × Word × Word × FbRegs) :=
  (answer (exec i s)).map fun t => (t.result, t.ret0, t.ret1, t.fb)

/-- The result and some bytes of memory after an operation. -/
def memView (i : Instr) (s : State) (l : List Nat) : Option (ResultCode × List (Option Byte)) :=
  (answer (exec i s)).map fun t => (t.result, l.map t.load)

/-- The bytes of the bus writes in a history. -/
def busBytes (h : List Event) : List (List Byte) :=
  h.filterMap fun e => match e with
    | .bus b _ => some b
    | .pin _ _ => none
    | .delay _ => none
    | .busy _ => none
    | .reset => none

/-- The result, the controller's registers, the levels of chip-select and data/command, how many events
were emitted and the bus writes among them. -/
structure DcView where
  result : ResultCode
  dcu    : DcRegs
  cs     : Level
  dc     : Level
  events : Nat
  bus    : List (List Byte)
deriving DecidableEq, Repr

/-- What a controller operation did. -/
def dcView (i : Instr) (s : State) : Option DcView :=
  (answer (exec i s)).map fun t =>
    let h := t.history.drop s.history.length
    ⟨t.result, t.dcu, t.lines.cs, t.lines.dc, h.length, busBytes h⟩

/-! ### Well-formedness: one ill-formed term for each check -/

theorem test_wf_refuses_width : (Instr.fbNew 12 16 0 24).wellFormed = false := by decide
theorem test_wf_refuses_rotation : (Instr.fbRot 4).wellFormed = false := by decide
theorem test_wf_refuses_clear_color : (Instr.fbClear 2).wellFormed = false := by decide
theorem test_wf_refuses_pixel_color : (Instr.fbPix 0 0 0x100).wellFormed = false := by decide
theorem test_wf_refuses_waveform : (Instr.dcLut 3).wellFormed = false := by decide
theorem test_wf_accepts :
    (Instr.fbNew 16 16 0 32).wellFormed && (Instr.fbRot 3).wellFormed && (Instr.dcLut 2).wellFormed = true := by
  decide

/-! ### Decoding: a word for each constructor, from R80, R81 and R85 -/

theorem test_decode_fbNew :
    decode ⟨0x00000010, 0xC8, 0xC8, 0, 0x1388, 0, 0⟩ = .ok (.fbNew 200 200 0 5000) := by decide
theorem test_decode_fbRot : decode ⟨0x00000011, 3, 0, 0, 0, 0, 0⟩ = .ok (.fbRot 3) := by decide
theorem test_decode_fbClear : decode ⟨0x00000012, 1, 0, 0, 0, 0, 0⟩ = .ok (.fbClear 1) := by decide
theorem test_decode_fbPix :
    decode ⟨0x00000013, 3, 5, 1, 0, 0, 0⟩ = .ok (.fbPix 3 5 1) := by decide
theorem test_decode_fbGet : decode ⟨0x00000014, 0xE, 0xF, 0, 0, 0, 0⟩ = .ok (.fbGet 14 15) := by decide
/-- V3: the unused words are ignored. -/
theorem test_decode_fbBytes :
    decode ⟨0x00000015, 0xDEADBEEF, 0x12345678, 0xFFFFFFFF, 1, 2, 3⟩ = .ok .fbBytes := by decide
theorem test_decode_dcInit : decode ⟨0x00000020, 0, 0, 0, 0, 0, 0⟩ = .ok .dcInit := by decide
theorem test_decode_dcLut : decode ⟨0x00000021, 2, 0, 0, 0, 0, 0⟩ = .ok (.dcLut 2) := by decide
theorem test_decode_dcClrf : decode ⟨0x00000022, 0, 0, 0, 0, 0, 0⟩ = .ok .dcClrf := by decide
theorem test_decode_dcUpdate :
    decode ⟨0x00000023, 0, 0x20, 0, 0, 0, 0⟩ = .ok (.dcUpdate 0 32) := by decide
theorem test_decode_dcPartial :
    decode ⟨0x00000024, 0, 0x1388, 0x14, 0x15, 0xA0, 0xA8⟩ = .ok (.dcPartial 0 5000 20 21 160 168) := by
  decide
theorem test_decode_dcDisplay : decode ⟨0x00000025, 0, 0, 0, 0, 0, 0⟩ = .ok .dcDisplay := by decide
theorem test_decode_dcSleep : decode ⟨0x00000026, 0, 0, 0, 0, 0, 0⟩ = .ok .dcSleep := by decide
/-- V1: the reserved bits are checked first. -/
theorem test_decode_reserved : decode ⟨0x00000113, 0, 0, 0, 0, 0, 0⟩ = .error .reservedBits := by decide
/-- V2: the opcodes beside the two families. -/
theorem test_decode_unknown :
    ([0x00000000, 0x0000000F, 0x00000016, 0x0000001F, 0x00000027, 0x000000FF] : List Word).all
      (fun w => decide (decode ⟨w, 0, 0, 0, 0, 0, 0⟩ = .error .unknownOpcode)) = true := by decide
theorem test_encode_dcUpdate : encode (.dcUpdate 0 32) = ⟨0x00000023, 0, 0x20, 0, 0, 0, 0⟩ := by decide
/-- The bits of a later word count on from bit 32. -/
theorem test_decodeTableWord :
    decodeTableWord 96 0x000000050000000300000014 = some (.fbGet 3 5) := by decide

/-! ### The framebuffer unit -/

/-- V14. -/
theorem test_fbNew_at_the_top : fbView (.fbNew 16 16 32 32) (machine noFb (dcIn .uninit) [] []) =
    some (.ok, 7, 9, ⟨true, 16, 16, .rotate0, 32, 32⟩) := by decide
/-- V18: the sum of base and length does not wrap. -/
theorem test_fbNew_no_wrap : fbView (.fbNew 16 16 0xFFFFFFFF 32) (machine noFb (dcIn .uninit) [] []) =
    some (.illegalOperation, 7, 9, noFb) := by decide
theorem test_fbRot_270 : fbView (.fbRot 3) (withFb .rotate90) =
    some (.ok, 7, 9, square .rotate270) := by decide
/-- V7: the state is checked before the operand. -/
theorem test_fbRot_state_first : fbView (.fbRot 4) (machine noFb (dcIn .uninit) [] []) =
    some (.invalidState, 7, 9, noFb) := by decide
/-- V19. -/
theorem test_fbClear_white :
    memView (.fbClear 1) (machine ⟨true, 16, 16, .rotate0, 32, 32⟩ (dcIn .uninit) [] []) [31, 32, 63, 64] =
      some (.ok, [some 0xAA, some 0xFF, some 0xFF, none]) := by decide +kernel
/-- V5. -/
theorem test_fbClear_color : memView (.fbClear 2) (withFb .rotate0) [0] =
    some (.illegalOperation, [some 0xAA]) := by decide
/-- V20: the bit of (3, 5) on a white bitmap. -/
theorem test_fbPix_black :
    memView (.fbPix 3 5 0) { withFb .rotate0 with mem := bytes32 0xFF } [9, 10, 11] =
      some (.ok, [some 0xFF, some 0xEF, some 0xFF]) := by decide +kernel
/-- P1 step 5: the same point under `Rotate90`. -/
theorem test_fbPix_rotated :
    memView (.fbPix 3 5 0) { withFb .rotate90 with mem := bytes32 0xFF } [6, 7, 10] =
      some (.ok, [some 0xFF, some 0xDF, some 0xFF]) := by decide +kernel
/-- P1 step 12: (14, 15) under `Rotate270` is bit `0x01` of byte 3. -/
theorem test_fbGet_rotated : fbView (.fbGet 14 15) { withFb .rotate270 with mem := [(3, 0x01)] } =
    some (.ok, 1, 9, square .rotate270) := by decide
/-- S6: outside the bitmap. -/
theorem test_fbGet_outside : fbView (.fbGet 16 0) (withFb .rotate0) =
    some (.ok, 0xFFFFFFFF, 9, square .rotate0) := by decide
/-- P1 step 18. -/
theorem test_fbBytes : fbView .fbBytes (withFb .rotate180) =
    some (.ok, 0, 32, square .rotate180) := by decide

/-! ### The controller unit -/

/-- V31. -/
theorem test_dcInit_ok : dcView .dcInit (machine noFb (dcIn .uninit) (List.replicate 5 true) [.low]) =
    some ⟨.ok, dcIn .idle, .high, .high, 25,
      [[0xA0], [0x01, 0x02], [0xA1], [0xB0], [0xD0, 0xD1, 0xD2, 0xD3]]⟩ := by decide +kernel
/-- V33. -/
theorem test_dcInit_timeout :
    dcView .dcInit (machine noFb dcLoaded (List.replicate 3 true) [.high, .high, .high, .low]) =
      some ⟨.initTimeout, dcIn .faulted, .high, .low, 22, [[0xA0], [0x01, 0x02], [0xA1]]⟩ := by
  decide +kernel
/-- V35. -/
theorem test_dcLut_full : dcView (.dcLut 1) (withDc .idle 2) =
    some ⟨.ok, ⟨.idle, .full, false, false⟩, .high, .high, 8, [[0xB0], [0xF0, 0xF1, 0xF2, 0xF3]]⟩ := by
  decide +kernel
/-- V36. -/
theorem test_dcLut_fault : dcView (.dcLut 1) (machine noFb (dcIn .idle) [true, false] []) =
    some ⟨.cmdBusFault, dcIn .faulted, .low, .high, 7, [[0xB0], [0xF0, 0xF1, 0xF2, 0xF3]]⟩ := by
  decide +kernel
/-- V37. -/
theorem test_dcClrf_ok : dcView .dcClrf (withDc .idle 4) =
    some ⟨.ok, ⟨.idle, .none, false, true⟩, .high, .high, 16,
      [[0xC0], List.replicate 32 0xFF, [0xC1], List.replicate 32 0xFF]⟩ := by decide +kernel
/-- V38. -/
theorem test_dcClrf_fault : dcView .dcClrf (machine noFb (dcIn .idle) [true, true, false] []) =
    some ⟨.cmdBusFault, dcIn .faulted, .low, .low, 11,
      [[0xC0], List.replicate 32 0xFF, [0xC1]]⟩ := by decide +kernel
/-- V39. -/
theorem test_dcUpdate_ok : dcView (.dcUpdate 0 32) { withDc .idle 2 with mem := ramp } =
    some ⟨.ok, ⟨.idle, .none, true, false⟩, .high, .high, 8,
      [[0xC1], (List.range 32).map (BitVec.ofNat 8)]⟩ := by decide +kernel
/-- V41 and V42: the slice is checked before the length. -/
theorem test_dcUpdate_checks :
    dcView (.dcUpdate 0 33) (withDc .idle 2) = some ⟨.sizeMismatch, dcIn .idle, .high, .high, 0, []⟩ ∧
    dcView (.dcUpdate 33 32) (withDc .idle 2) =
      some ⟨.illegalOperation, dcIn .idle, .high, .high, 0, []⟩ := by decide +kernel
/-- V60. -/
theorem test_dcPartial_ok : dcView (.dcPartial 0 32 8 8 8 8) { withDc .idle 6 with mem := ramp } =
    some ⟨.ok, ⟨.idle, .none, true, false⟩, .high, .high, 24,
      [[0xC4], [1, 1], [0xC5], [0, 8, 0, 15], [0xC1],
       [0x11, 0x13, 0x15, 0x17, 0x19, 0x1B, 0x1D, 0x1F]]⟩ := by decide +kernel
/-- V44. -/
theorem test_dcPartial_fault :
    dcView (.dcPartial 0 32 0 0 8 8) (machine noFb (dcIn .idle) [true, true, true, false] []) =
      some ⟨.cmdBusFault, dcIn .faulted, .low, .high, 15,
        [[0xC4], [0, 0], [0xC5], [0, 0, 0, 7]]⟩ := by decide +kernel
/-- V46. -/
theorem test_dcDisplay_ok : dcView .dcDisplay (machine noFb dcLoaded [true] [.high, .high, .low]) =
    some ⟨.ok, dcLoaded, .high, .low, 9, [[0xE0]]⟩ := by decide +kernel
/-- V45. -/
theorem test_dcDisplay_empty : dcView .dcDisplay (withDc .idle 1) =
    some ⟨.invalidState, dcIn .idle, .high, .high, 0, []⟩ := by decide +kernel
/-- V48. -/
theorem test_dcSleep_ok : dcView .dcSleep (machine noFb dcLoaded [true, true] []) =
    some ⟨.ok, ⟨.sleeping, .full, true, true⟩, .high, .high, 8, [[0xE1], [0x01]]⟩ := by decide +kernel
/-- V49. -/
theorem test_dcSleep_fault : dcView .dcSleep (machine noFb (dcIn .idle) [false] []) =
    some ⟨.cmdBusFault, dcIn .faulted, .low, .low, 3, [[0xE1]]⟩ := by decide +kernel
/-- V6: a faulted controller answers before the operand is checked. -/
theorem test_faulted_first : dcView (.dcLut 9) (withDc .faulted 2) =
    some ⟨.deviceFaulted, dcIn .faulted, .high, .high, 0, []⟩ := by decide +kernel

/-- V54 to V59: the window check. -/
theorem test_windowValid :
    (([⟨8, 8, 8, 8⟩, ⟨0, 0, 16, 16⟩, ⟨3, 0, 8, 16⟩] : List Window).all (windowValid tiny)) &&
    ([⟨15, 8, 0, 8⟩, ⟨8, 8, 4, 8⟩, ⟨8, 8, 8, 12⟩, ⟨8, 8, 16, 8⟩, ⟨16, 0, 8, 8⟩, ⟨0, 9, 8, 8⟩, ⟨9, 0, 8, 8⟩,
      ⟨0xFFFFFFF8, 0, 8, 8⟩] : List Window).all (fun w => !windowValid tiny w) = true := by decide

/-- V8: which points of a 16 by 8 bitmap a quarter turn accepts. -/
theorem test_locate_16_by_8 :
    locate ⟨true, 16, 8, .rotate90, 0, 16⟩ 7 7 = some (14, 0x80) ∧
    locate ⟨true, 16, 8, .rotate90, 0, 16⟩ 8 0 = none ∧
    locate ⟨true, 16, 8, .rotate270, 0, 16⟩ 8 7 = some (14, 0x01) ∧
    locate ⟨true, 16, 8, .rotate270, 0, 16⟩ 7 0 = none := by decide

/-- The bytes of memory keep their one form: a write of what an unlisted byte reads as leaves no entry. -/
theorem test_memory_form : Memory.write [(3, 1), (5, 2)] 4 0xAA = [(3, 1), (5, 2)] ∧
    Memory.write [(3, 1), (5, 2)] 5 0xAA = [(3, 1)] ∧
    Memory.write [(3, 1), (5, 2)] 4 9 = [(3, 1), (4, 9), (5, 2)] := by decide

/-- P4 step 13: block reset of a faulted controller, memory kept. -/
theorem test_blockReset :
    ((answer (hostReset { withDc .faulted 0 with mem := [(0, 1)] })).map fun t =>
      (t.result, t.dcu, t.mem)) = some (.noResult, dcIn .uninit, [(0, 1)]) := by decide

/-- The first instruction after reset: R118 on the one, R177 on the other. -/
theorem test_first_step :
    ((answer (step (State.reset.withFetchWord 32 0x15))).map State.result) = some .invalidState ∧
    ((answer (step (State.reset.withFetchWord 32 0x22))).map State.result) = some .invalidState := by
  decide

/-! ### Witnesses: the hypotheses of each statement, met together

A statement without hypotheses has none. A statement with several clauses has a witness for each. -/

theorem square_inv (r : Rotation) (p : Params) (h : 32 ≤ p.memBytes) : FbInv p (square r) :=
  ⟨fun _ => by simp [square], fun _ => by simp [square], fun _ => by simpa [square] using h⟩

theorem withFb_inv (r : Rotation) : FbInv (withFb r).cfg (withFb r).fb := square_inv r tiny (by decide)

theorem noFb_inv (p : Params) : FbInv p noFb := ⟨nofun, nofun, nofun⟩

/-- A state whose next move is GO on a descriptor. -/
def goOn (d : Descriptor) (s : State) : State := { s with opw := d, host := [.go] }

theorem witness_GoRunsTheDecodedOperation :
    (goOn (encode (.dcUpdate 0 32)) (withDc .idle 2)).host = .go :: [] ∧
    decode (goOn (encode (.dcUpdate 0 32)) (withDc .idle 2)).opw = .ok (.dcUpdate 0 32) :=
  ⟨rfl, by decide⟩

theorem witness_UndecodableDescriptorIsIllegal :
    (goOn ⟨0x100, 0, 0, 0, 0, 0, 0⟩ (withDc .faulted 0)).host = .go :: [] ∧
    decode (goOn ⟨0x100, 0, 0, 0, 0, 0, 0⟩ (withDc .faulted 0)).opw = .error .reservedBits :=
  ⟨rfl, by decide⟩

theorem witness_StartMovesRunTheDescriptor :
    decode ⟨0x24, 0, 32, 8, 8, 8, 8⟩ = .ok (.dcPartial 0 32 8 8 8 8) := by decide

/-- Both clauses: the last address of memory and the first that does not exist. -/
theorem witness_HostStoreWritesOneByte :
    (∃ s : State, s.host = .store 63 1 :: [] ∧ Memory.wf s.mem = true ∧ 63 < s.cfg.memBytes) ∧
    (∃ s : State, s.host = .store 64 1 :: [] ∧ Memory.wf s.mem = true ∧ s.cfg.memBytes ≤ 64) :=
  ⟨⟨{ withFb .rotate0 with host := [.store 63 1], mem := ramp }, rfl, by decide +kernel, by decide⟩,
   ⟨{ withFb .rotate0 with host := [.store 64 1], mem := ramp }, rfl, by decide +kernel, by decide⟩⟩

theorem witness_HostWritesOneOperandWord :
    ∃ s : State, s.host = .writeOpw 6 0xFFFFFFFF :: [] :=
  ⟨{ withFb .rotate0 with host := [.writeOpw 6 0xFFFFFFFF] }, rfl⟩

theorem witness_NothingHappensWithoutAMove : (withFb .rotate0).host = [] := rfl

theorem witness_BlockResetRestoresResetValues : ∃ s : State, s.host = .reset :: [.go] :=
  ⟨{ withDc .faulted 0 with host := [.reset, .go] }, rfl⟩

/-- A slice that ends with memory, and an empty bitmap at its end. -/
theorem witness_FbNewCreates :
    ((16#32).toNat % 8 = 0 ∧ (32#32).toNat + (32#32).toNat ≤ tiny.memBytes ∧
      (32#32).toNat = (16#32).toNat / 8 * (16#32).toNat) ∧
    ((8#32).toNat % 8 = 0 ∧ (64#32).toNat + (0#32).toNat ≤ tiny.memBytes ∧
      (0#32).toNat = (8#32).toNat / 8 * (0#32).toNat) := by decide

/-- The three refusals: a width of 12, a slice one byte too high, a length one byte too short. -/
theorem witness_FbNewRefusesInOrder :
    (12#32).toNat % 8 ≠ 0 ∧
    tiny.memBytes < (33#32).toNat + (32#32).toNat ∧
    ((16#32).toNat % 8 = 0 ∧ (0#32).toNat + (31#32).toNat ≤ tiny.memBytes ∧
      (31#32).toNat ≠ (16#32).toNat / 8 * (16#32).toNat) := by decide

theorem witness_FbRotSetsTheRotation :
    (withDc .idle 0).fb.valid = false ∧ (withFb .rotate0).fb.valid = true ∧ (3#32).toNat ≤ 3 ∧ 3 < (4#32).toNat := by decide

/-- The three clauses: no framebuffer, a colour of 2, a colour of 1. -/
theorem witness_FbClearFillsTheBitmap :
    (FbInv (withDc .idle 0).cfg (withDc .idle 0).fb ∧ Memory.wf (withDc .idle 0).mem = true ∧
      (withDc .idle 0).fb.valid = false) ∧
    (FbInv (withFb .rotate0).cfg (withFb .rotate0).fb ∧ Memory.wf (withFb .rotate0).mem = true ∧
      (withFb .rotate0).fb.valid = true ∧ 1 < (2#32).toNat ∧ (1#32).toNat ≤ 1) :=
  ⟨⟨noFb_inv _, rfl, rfl⟩, withFb_inv _, rfl, rfl, by decide, by decide⟩

/-- The four clauses: no framebuffer, a colour of 2, the first point outside, the last point inside. -/
theorem witness_FbPixWritesOneBit :
    (FbInv (withDc .idle 0).cfg (withDc .idle 0).fb ∧ Memory.wf (withDc .idle 0).mem = true ∧
      (withDc .idle 0).fb.valid = false) ∧
    (FbInv (withFb .rotate90).cfg (withFb .rotate90).fb ∧ Memory.wf (withFb .rotate90).mem = true ∧
      (withFb .rotate90).fb.valid = true ∧ 1 < (2#32).toNat ∧ (1#32).toNat ≤ 1 ∧
      locate (withFb .rotate90).fb 16 0 = none ∧
      locate (withFb .rotate90).fb 15 15 = some (30, 0x80)) :=
  ⟨⟨noFb_inv _, rfl, rfl⟩, withFb_inv _, rfl, rfl, by decide, by decide, by decide, by decide⟩

theorem witness_FbGetReadsOneBit :
    FbInv (withFb .rotate180).cfg (withFb .rotate180).fb ∧ (withFb .rotate180).fb.valid = true ∧
    locate (withFb .rotate180).fb 0 16 = none ∧ locate (withFb .rotate180).fb 0 0 = some (31, 0x01) :=
  ⟨withFb_inv _, rfl, by decide, by decide⟩

theorem witness_FbBytesReturnsTheSlice : (withFb .rotate270).fb.valid = true := rfl

/-- A storing operation, one that writes no memory, one that writes no framebuffer register. -/
theorem witness_FramebufferFrame :
    ∀ i ∈ [Instr.fbPix 3 5 0, .fbRot 1, .fbGet 3 5], isFb i = true ∧
      FbInv (withFb .rotate0).cfg (withFb .rotate0).fb ∧ Memory.wf (withFb .rotate0).mem = true ∧
      ∃ t, exec i (withFb .rotate0) = .next t := by
  intro i hi
  simp only [List.mem_cons, List.not_mem_nil, or_false] at hi
  rcases hi with rfl | rfl | rfl <;> exact ⟨rfl, withFb_inv _, rfl, _, rfl⟩

theorem witness_PixelReadsBack :
    FbInv (withFb .rotate90).cfg (withFb .rotate90).fb ∧ Memory.wf (withFb .rotate90).mem = true ∧
    (withFb .rotate90).fb.valid = true ∧ (1#32).toNat ≤ 1 ∧ locate (withFb .rotate90).fb 15 15 ≠ none :=
  ⟨withFb_inv _, rfl, rfl, by decide, by decide⟩

/-- Two points of one byte. -/
theorem witness_PixelWriteLeavesOtherPixels :
    FbInv (withFb .rotate0).cfg (withFb .rotate0).fb ∧ Memory.wf (withFb .rotate0).mem = true ∧
    (withFb .rotate0).fb.valid = true ∧ (0#32).toNat ≤ 1 ∧ ((3#32, 5#32) : Word × Word) ≠ (4, 5) :=
  ⟨withFb_inv _, rfl, rfl, by decide, by decide⟩

theorem witness_LocateIsInjective :
    FbInv tiny (square .rotate270) ∧ (square .rotate270).valid = true ∧
    locate (square .rotate270) 3 5 = some (24, 0x04) :=
  ⟨square_inv _ _ (by decide), rfl, by decide⟩

/-- A corner of the bitmap under each rotation, the answers worked out by hand from R116 and R67: with
`W = Ht = 16` the point `(15, 2)` goes to `(15, 2)`, `(13, 15)`, `(0, 13)` and `(2, 0)`. -/
theorem witness_LocateStaysInTheBitmap :
    (∀ r, FbInv tiny (square r) ∧ (square r).valid = true) ∧
    locate (square .rotate0) 15 2 = some (5, 0x01) ∧
    locate (square .rotate90) 15 2 = some (31, 0x04) ∧
    locate (square .rotate180) 15 2 = some (26, 0x80) ∧
    locate (square .rotate270) 15 2 = some (0, 0x20) :=
  ⟨fun _ => ⟨square_inv _ _ (by decide), rfl⟩, by decide, by decide, by decide, by decide⟩

/-- A 16 by 8 bitmap under each rotation of the clauses, and a square one. -/
theorem witness_LocateRejectsExactly :
    ∀ r ∈ [Rotation.rotate0, .rotate90, .rotate180, .rotate270],
      15 < (⟨true, 16, 8, r, 0, 16⟩ : FbRegs).width.toNat ∧
      7 < (⟨true, 16, 8, r, 0, 16⟩ : FbRegs).height.toNat ∧
      (square r).width = (square r).height ∧ 15 < (square r).width.toNat ∧ 15 < (square r).height.toNat := by
  decide

theorem witness_ClearOverwritesClear :
    FbInv (withFb .rotate0).cfg (withFb .rotate0).fb ∧ Memory.wf (withFb .rotate0).mem = true ∧
    (withFb .rotate0).fb.valid = true := ⟨withFb_inv _, rfl, rfl⟩

theorem witness_LengthFollowsTheGeometry :
    ∀ i ∈ [Instr.fbNew 8 8 0 8, .fbRot 1], FbInv (withFb .rotate0).cfg (withFb .rotate0).fb ∧
      (withFb .rotate0).fb.valid = true ∧ ∃ t, exec i (withFb .rotate0) = .next t := by
  intro i hi
  simp only [List.mem_cons, List.not_mem_nil, or_false] at hi
  rcases hi with rfl | rfl <;> exact ⟨withFb_inv _, rfl, _, rfl⟩

/-- Ready at the last sample that the bound allows. -/
theorem witness_DcInitCompletes :
    let s := machine noFb dcLoaded (List.replicate 5 true) [.high, .high, .low]
    s.dcu.state ≠ .faulted ∧ BusOk s.env ((initFrames s).length + (tableFrames s).length) ∧
      2 < s.cfg.busyMaxPolls ∧ ReadyAt s.cfg s.env 2 := by
  unfold BusOk ReadyAt
  decide

theorem witness_DcLutCompletes :
    Runs (withDc .idle 2) (.dcLut 2) ∧
    BusOk (withDc .idle 2).env (opFrames (withDc .idle 2) (.dcLut 2)).length := by
  unfold BusOk Runs
  decide

theorem witness_DcClrfCompletes :
    Runs (withDc .idle 4) .dcClrf ∧ BusOk (withDc .idle 4).env (opFrames (withDc .idle 4) .dcClrf).length := by
  unfold BusOk Runs
  decide +kernel

theorem witness_DcUpdateCompletes :
    Runs (withDc .idle 2) (.dcUpdate 32 32) ∧
    BusOk (withDc .idle 2).env (opFrames (withDc .idle 2) (.dcUpdate 32 32)).length := by
  unfold BusOk Runs
  decide +kernel

theorem witness_DcPartialCompletes :
    Runs (withDc .idle 6) (.dcPartial 32 32 8 8 8 8) ∧ 8 + 8 = (withDc .idle 6).cfg.devWidth ∧
    BusOk (withDc .idle 6).env (opFrames (withDc .idle 6) (.dcPartial 32 32 8 8 8 8)).length := by
  unfold BusOk Runs
  decide +kernel

theorem witness_DcDisplayCompletes :
    let s := machine noFb dcLoaded [true] [.high, .high, .low]
    Runs s .dcDisplay ∧ BusOk s.env (opFrames s .dcDisplay).length ∧ 2 < s.cfg.busyMaxPolls ∧
      ReadyAt s.cfg s.env 2 := by
  unfold BusOk Runs ReadyAt
  decide

theorem witness_DcSleepCompletes :
    Runs (withDc .idle 2) .dcSleep ∧ BusOk (withDc .idle 2).env (opFrames (withDc .idle 2) .dcSleep).length := by
  unfold BusOk Runs
  decide

theorem witness_DcInitTimesOut :
    let s := machine noFb (dcIn .sleeping) [true, true, true] [.high, .high, .high, .low]
    s.dcu.state ≠ .faulted ∧ BusOk s.env (initFrames s).length ∧ NeverReady s.cfg s.env := by
  unfold BusOk NeverReady
  decide

theorem witness_DcInitTimesOut_only :
    ∃ t, exec .dcInit (machine noFb (dcIn .idle) [true, true, true] [.high, .high, .high]) = .next t ∧
      t.result = .initTimeout := ⟨_, rfl, rfl⟩

/-- The two clauses: the last write before the busy-wait fails; the last write of all fails. -/
theorem witness_DcInitBusFaults :
    (let s := machine noFb (dcIn .uninit) [true, true, false] []
     s.dcu.state ≠ .faulted ∧ BusFailsAt s.env 2 ∧ (initFrames s)[2]? = some ⟨.low, [0xA1]⟩) ∧
    (let s := machine noFb (dcIn .uninit) [true, true, true, true, false] [.high, .high, .low]
     s.dcu.state ≠ .faulted ∧ BusFailsAt s.env ((initFrames s).length + 1) ∧
       (tableFrames s)[1]? = some ⟨.high, [0xD0, 0xD1, 0xD2, 0xD3]⟩ ∧ 2 < s.cfg.busyMaxPolls ∧
       ReadyAt s.cfg s.env 2) := by
  unfold BusFailsAt BusOk ReadyAt
  decide

theorem witness_DcInitBusFaults_only :
    ∃ t, exec .dcInit (machine noFb (dcIn .sleeping) [false] []) = .next t ∧ t.result = .initBusFault :=
  ⟨_, rfl, rfl⟩

/-- The last write of `dc.sleep` fails. -/
theorem witness_CommandBusFaults :
    let s := machine noFb (dcIn .idle) [true, false] []
    Runs s .dcSleep ∧ BusFailsAt s.env 1 ∧ (opFrames s .dcSleep)[1]? = some ⟨.high, [0x01]⟩ := by
  unfold BusFailsAt BusOk Runs
  decide

theorem witness_DcDisplayTimesOut :
    let s := machine noFb dcLoaded [true] [.high, .high, .high, .low]
    Runs s .dcDisplay ∧ BusOk s.env (opFrames s .dcDisplay).length ∧ NeverReady s.cfg s.env := by
  unfold BusOk Runs NeverReady
  decide

theorem witness_DcDisplayTimesOut_only :
    ∃ t, exec .dcDisplay (machine noFb dcLoaded [true] [.high, .high, .high]) = .next t ∧
      t.result = .timeout := ⟨_, rfl, rfl⟩

theorem witness_FaultedControllerRefusesAll :
    (isDc (.dcUpdate 0 31) = true ∧ (withDc .faulted 0).dcu.state = .faulted) ∧
    (isFb .fbBytes = true ∧ ∃ t, exec .fbBytes (withDc .faulted 0) = .next t) :=
  ⟨⟨rfl, rfl⟩, rfl, _, rfl⟩

/-- The three clauses; the first in each of the two states it names. -/
theorem witness_WrongStateIsRefused :
    (∀ x ∈ [DcState.uninit, .sleeping], isDc .dcSleep = true ∧ Instr.dcSleep ≠ .dcInit ∧
      (withDc x 0).dcu.state ≠ .faulted ∧ (withDc x 0).dcu.state ≠ .idle) ∧
    ((withDc .idle 0).dcu.state = .idle ∧ (withDc .idle 0).dcu.frameLoaded = false) ∧
    (isFb (.fbPix 0 0 2) = true ∧ (∀ w h b l, Instr.fbPix 0 0 2 ≠ .fbNew w h b l) ∧
      (withDc .idle 0).fb.valid = false) :=
  ⟨by decide, by decide, rfl, nofun, rfl⟩

/-- An idle controller and, for each clause, the nearest value that it refuses. -/
theorem witness_OperandChecksInOrder :
    (withDc .idle 0).cfg = tiny ∧ (withDc .idle 0).dcu.state = .idle ∧
    2 < (3#32).toNat ∧
    tiny.memBytes < (33#32).toNat + (32#32).toNat ∧
    ((0#32).toNat + (31#32).toNat ≤ tiny.memBytes ∧ (31#32).toNat ≠ frameBytes tiny) ∧
    ((32#32).toNat + (32#32).toNat ≤ tiny.memBytes ∧ (32#32).toNat = frameBytes tiny ∧
      tiny.devWidth < (9#32).toNat + (8#32).toNat ∧
      tiny.devWidth = (8#32).toNat + (8#32).toNat) := by decide

/-- One operation for each code that the statement names. -/
theorem witness_CallerErrorsChangeOnlyResult :
    (∃ t, exec (.dcUpdate 0 31) (withDc .idle 0) = .next t ∧ t.result = .sizeMismatch) ∧
    (∃ t, exec (.dcPartial 0 32 9 0 8 8) (withDc .idle 0) = .next t ∧ t.result = .invalidWindow) ∧
    (∃ t, exec .dcClrf (withDc .uninit 0) = .next t ∧ t.result = .invalidState) ∧
    (∃ t, exec (.fbRot 4) (withFb .rotate0) = .next t ∧ t.result = .illegalOperation) ∧
    (∃ t, exec .dcInit (withDc .faulted 0) = .next t ∧ t.result = .deviceFaulted) :=
  ⟨⟨_, rfl, rfl⟩, ⟨_, rfl, rfl⟩, ⟨_, rfl, rfl⟩, ⟨_, rfl, rfl⟩, ⟨_, rfl, rfl⟩⟩

/-- One operation for each device failure. -/
theorem witness_DeviceFailuresFaultTheController :
    (∃ t, exec .dcInit (machine noFb (dcIn .uninit) [false] []) = .next t ∧ t.result = .initBusFault) ∧
    (∃ t, exec .dcInit (machine noFb (dcIn .uninit) [true, true, true] [.high, .high, .high]) = .next t ∧
      t.result = .initTimeout) ∧
    (∃ t, exec .dcSleep (machine noFb (dcIn .idle) [false] []) = .next t ∧ t.result = .cmdBusFault) ∧
    (∃ t, exec .dcDisplay (machine noFb dcLoaded [true] [.high, .high, .high]) = .next t ∧
      t.result = .timeout) :=
  ⟨⟨_, rfl, rfl⟩, ⟨_, rfl, rfl⟩, ⟨_, rfl, rfl⟩, ⟨_, rfl, rfl⟩⟩

/-- The transitions of the four cases. -/
theorem witness_ControllerStateTransitions :
    (∃ t, exec .fbBytes (withDc .sleeping 0) = .next t ∧ t.dcu.state = .sleeping) ∧
    (∃ t, exec .dcInit (machine noFb (dcIn .sleeping) (List.replicate 5 true) [.low]) = .next t ∧
      t.dcu.state = .idle) ∧
    (∃ t, exec .dcSleep (withDc .idle 2) = .next t ∧ t.dcu.state = .sleeping) ∧
    (∃ t, exec .dcSleep (machine noFb (dcIn .idle) [false] []) = .next t ∧ t.dcu.state = .faulted) :=
  ⟨⟨_, rfl, rfl⟩, ⟨_, rfl, rfl⟩, ⟨_, rfl, rfl⟩, ⟨_, rfl, rfl⟩⟩

theorem witness_FlagsFollowTheOperations :
    (∃ t, exec .dcInit (machine noFb dcLoaded [false] []) = .next t ∧ dcLoaded.state ≠ .faulted) ∧
    (∃ t, exec (.dcLut 2) (withDc .idle 2) = .next t ∧ t.result = .ok ∧ Instr.dcLut 2 ≠ .dcInit) ∧
    (∃ t, exec (.dcLut 2) (withDc .sleeping 2) = .next t ∧ t.result ≠ .ok) :=
  ⟨⟨_, rfl, by decide⟩, ⟨_, rfl, rfl, by decide⟩, ⟨_, rfl, by decide⟩⟩

theorem witness_ReturnRegistersHaveTwoWriters :
    (∃ t, exec (.fbGet 0 0) (withFb .rotate0) = .next t ∧ t.ret0 = 1) ∧
    (∃ s t : State, s.host = .reset :: [] ∧ HostMove.reset ≠ .go ∧ step s = .next t) ∧
    (∃ s t : State, s.host = .writeOpw 0 1 :: [] ∧ HostMove.writeOpw 0 1 ≠ .go ∧ HostMove.writeOpw 0 1 ≠ .reset ∧
      step s = .next t) :=
  ⟨⟨_, rfl, by decide⟩,
   ⟨{ withFb .rotate0 with host := [.reset] }, _, rfl, by decide, rfl⟩,
   ⟨{ withFb .rotate0 with host := [.writeOpw 0 1] }, _, rfl, by decide, by decide, rfl⟩⟩

theorem witness_ControllerFrame :
    isDc .dcSleep = true ∧ ∃ t, exec .dcSleep (withDc .idle 2) = .next t ∧ t.result = .ok :=
  ⟨rfl, _, rfl, rfl⟩

theorem witness_ControllerIgnoresFramebuffer : isDc (.dcUpdate 0 32) = true := rfl

theorem witness_FramebufferIgnoresController : isFb (.fbPix 3 5 1) = true := rfl

theorem witness_OnlyInitAndDisplayWait :
    Instr.dcSleep ≠ .dcInit ∧ Instr.dcSleep ≠ .dcDisplay ∧
    ∃ t, exec .dcSleep (withDc .idle 2) = .next t := ⟨by decide, by decide, _, rfl⟩

/-- Each clause: the operation ends with `Ok` on valid parameters, `dc.init` at the
most samples that the bound allows and `dc.display` at the fewest. -/
theorem witness_EventCountsOfSuccess :
    tiny.Valid ∧
    (∃ t, exec .dcInit (machine noFb (dcIn .uninit) (List.replicate 5 true) [.high, .high, .low]) = .next t ∧
      t.result = .ok) ∧
    (∃ t, exec (.dcLut 0) (withDc .idle 2) = .next t ∧ t.result = .ok) ∧
    (∃ t, exec .dcDisplay (machine noFb dcLoaded [true] [.low]) = .next t ∧ t.result = .ok) ∧
    (∃ t, exec .dcSleep (withDc .idle 2) = .next t ∧ t.result = .ok) :=
  ⟨by decide, ⟨_, rfl, rfl⟩, ⟨_, rfl, rfl⟩, ⟨_, rfl, rfl⟩, ⟨_, rfl, rfl⟩⟩

theorem witness_EventCountsOfSuccess_transfers :
    ∀ i ∈ [Instr.dcClrf, .dcUpdate 0 32, .dcPartial 0 32 8 8 8 8],
      (dcView i (withDc .idle 6)).map DcView.result = some .ok := by decide +kernel

theorem witness_PartialSendsTheWindowBytes :
    tiny.Valid ∧
    (dcView (.dcPartial 32 32 8 8 8 8) (withDc .idle 6)).map DcView.result = some .ok := by
  decide +kernel

theorem witness_HistoryOnlyGrows : ∃ s t : State, s.host = [.reset] ∧ step s = .next t :=
  ⟨{ withFb .rotate0 with host := [.reset] }, _, rfl, rfl⟩

/-- Both states are left. -/
theorem witness_WhatLeavesFaultedAndSleeping :
    (∃ s t : State, step s = .next t ∧ s.dcu.state = .faulted ∧ t.dcu.state ≠ .faulted) ∧
    (∃ s t : State, step s = .next t ∧ s.dcu.state = .sleeping ∧ t.dcu.state ≠ .sleeping) :=
  ⟨⟨{ withDc .faulted 0 with host := [.reset] }, _, rfl, rfl, by decide⟩,
   ⟨{ withDc .sleeping 0 with host := [.reset] }, _, rfl, rfl, by decide⟩⟩

/-- Two operations on a faulted controller, one of each unit. -/
theorem witness_FaultedRunsAreSilent :
    ∃ s t : State, s.dcu.state = .faulted ∧ (∀ m ∈ s.host, m ≠ HostMove.reset) ∧
      Host.Core.run Sys2Proof.core 2 s = .next t :=
  ⟨goOn (encode .dcInit) (withDc .faulted 0), _, rfl, by decide, rfl⟩

/-- A state that meets the invariant, its host about to store and to run an operation. -/
def good : State :=
  { withFb .rotate90 with mem := [(3, 1), (5, 2)], opw := encode (.fbPix 3 5 1), host := [.go, .store 63 1] }

theorem good_inv : Inv good where
  params     := by show tiny.Valid; decide
  fb         := withFb_inv .rotate90
  settled    := .inl rfl
  fresh      := fun _ => rfl
  resetHigh  := rfl
  canonical  := by decide
  inMemory   := by decide
  busBytes   := by decide
  hostStores := by
    intro a v h
    simp [good] at h
    rw [h.1]
    decide

theorem witness_EveryStepKeepsTheInvariant : Inv good ∧ ∃ t, step good = .next t := ⟨good_inv, _, rfl⟩

theorem witness_NoStepStops : Inv good := good_inv

end Sys2Proof.Tests
end

/-! What a step answers, move by move, and from it that a step only appends to the history `H` and keeps
the parameters. -/

namespace Sys2Proof.Machine

/-! ### Everything a step can answer -/

/-- Everything a step answers with a next state: an idle step, or one of the host's four moves, where GO
either starts an operation or ends with the result code of R84. -/
theorem step_cases {s t : State} (h : step s = .next t) :
    (s.host = [] ∧ t = s) ∨
    ∃ rest,
      (∃ i v, s.host = .writeOpw i v :: rest ∧
        t = (s.setHost rest).setOpw (setOperandWord s.opw i v)) ∨
      (∃ a v, s.host = .store a v :: rest ∧ a < s.cfg.memBytes ∧
        t = (s.setHost rest).setMem (Memory.write s.mem a v)) ∨
      (∃ i, s.host = .go :: rest ∧ decode s.opw = .ok i ∧ exec i (s.setHost rest) = .next t) ∨
      (∃ e, s.host = .go :: rest ∧ decode s.opw = .error e ∧
        t = (s.setHost rest).setResult .illegalOperation) ∨
      (s.host = .reset :: rest ∧ t = blockReset (s.setHost rest)) := by
  cases hh : s.host with
  | nil =>
    rw [step_idle hh] at h
    cases h
    exact .inl ⟨rfl, rfl⟩
  | cons m rest =>
    refine .inr ⟨rest, ?_⟩
    have hm := (step_move hh).symm.trans h
    cases m with
    | writeOpw i v => exact .inl ⟨i, v, rfl, (Host.Outcome.next.inj hm).symm⟩
    | store a v =>
      rw [step_store hh] at h
      split at h
      case isTrue ha => exact .inr (.inl ⟨a, v, rfl, ha, (Host.Outcome.next.inj h).symm⟩)
      case isFalse => cases h
    | go =>
      have hr : runDescriptor (s.setHost rest) = .next t := hm
      rcases runDescriptor_cases (s.setHost rest) with ⟨i, hd, he⟩ | ⟨e, hd, he⟩
      · exact .inr (.inr (.inl ⟨i, rfl, hd, he.symm.trans hr⟩))
      · exact .inr (.inr (.inr (.inl ⟨e, rfl, hd, Host.Outcome.next.inj (hr.symm.trans he)⟩)))
    | reset => exact .inr (.inr (.inr (.inr ⟨rfl, (Host.Outcome.next.inj hm).symm⟩)))

/-! ### Growth of the history under the same parameters -/

/-- The history of `t` extends that of `s`, under the same parameters (R10, R20). -/
def HistoryGrows (s t : State) : Prop := s.history <+: t.history ∧ t.cfg = s.cfg

theorem HistoryGrows.refl (s : State) : HistoryGrows s s := ⟨List.prefix_rfl, rfl⟩

theorem HistoryGrows.trans {s t u : State} (h : HistoryGrows s t) (h' : HistoryGrows t u) :
    HistoryGrows s u := ⟨h.1.trans h'.1, h'.2.trans h.2⟩

@[simp] theorem historyGrows_setResult {s t : State} {c : ResultCode} :
    HistoryGrows s (t.setResult c) ↔ HistoryGrows s t := Iff.rfl

@[simp] theorem historyGrows_setDcu {s t : State} {d : DcRegs} :
    HistoryGrows s (t.setDcu d) ↔ HistoryGrows s t := Iff.rfl

@[simp] theorem historyGrows_setOpw {s t : State} {d : Descriptor} :
    HistoryGrows s (t.setOpw d) ↔ HistoryGrows s t := Iff.rfl

@[simp] theorem historyGrows_setMem {s t : State} {m : Memory} :
    HistoryGrows s (t.setMem m) ↔ HistoryGrows s t := Iff.rfl

@[simp] theorem historyGrows_setHost {s t : State} {moves : List HostMove} :
    HistoryGrows s (t.setHost moves) ↔ HistoryGrows s t := Iff.rfl

@[simp] theorem setHost_historyGrows {s t : State} {moves : List HostMove} :
    HistoryGrows (s.setHost moves) t ↔ HistoryGrows s t := Iff.rfl

theorem historyGrows_sent (s : State) (fs : List Frame) : HistoryGrows s (sent s fs) :=
  ⟨List.prefix_append _ _, rfl⟩

theorem historyGrows_sentUpTo (s : State) (fs : List Frame) (k : Nat) (f : Frame) :
    HistoryGrows s (sentUpTo s fs k f) := by
  refine ⟨?_, rfl⟩
  rw [sentUpTo_history, List.append_assoc]
  exact List.prefix_append _ _

theorem historyGrows_waited (s : State) (k : Nat) : HistoryGrows s (waited s k) :=
  ⟨List.prefix_append _ _, rfl⟩

theorem historyGrows_timedOut (s : State) : HistoryGrows s (timedOut s) :=
  ⟨List.prefix_append _ _, rfl⟩

theorem historyGrows_pulsed (s : State) : HistoryGrows s (pulsed s) :=
  ⟨List.prefix_append _ _, rfl⟩

theorem historyGrows_blockReset (s : State) : HistoryGrows s (blockReset s) :=
  ⟨List.prefix_append _ _, rfl⟩

/-! ### Operations -/

/-- No framebuffer operation writes the controller, the latches, `H`, the environment's answers, the
operand registers or the parameters (R40, R118). -/
theorem fbFrame_of_exec {i : Instr} {s t : State} (hi : isFb i = true) (h : exec i s = .next t) :
    FbFrame s t := by
  rcases fb_cases hi h with ⟨-, ht⟩ | ⟨_, _, _, _, -, -, -, -, rfl⟩ | ⟨_, _, -, -, -, rfl⟩ |
    ⟨_, _, _, -, -, -, -, rfl⟩ | ⟨_, _, _, _, -, -, -, ⟨-, rfl⟩ | ⟨_, _, -, -, rfl⟩⟩ |
    ⟨_, _, _, -, -, rfl⟩ | ⟨-, -, rfl⟩
  case inl => rw [ht]; constructor <;> rfl
  all_goals constructor <;> rfl

theorem exec_fb_historyGrows {i : Instr} {s t : State} (hi : isFb i = true)
    (h : exec i s = .next t) : HistoryGrows s t :=
  have hf := fbFrame_of_exec hi h
  ⟨hf.history ▸ List.prefix_rfl, hf.cfg⟩

/-- The panel's reset pulse and the initialisation sequence of `dc.init` (R170). -/
theorem historyGrows_initSent (s : State) : HistoryGrows s (sent (pulsed s) (initFrames s)) :=
  (historyGrows_pulsed s).trans (historyGrows_sent _ _)

/-- A controller operation is refused, or it ends after writes, samples and delays it appended. -/
theorem exec_dc_historyGrows {i : Instr} {s t : State} (hi : isDc i = true)
    (h : exec i s = .next t) : HistoryGrows s t := by
  rcases dc_cases hi h with ⟨_, -, rfl⟩ | ⟨-, -, hend⟩ | ⟨-, -, hend⟩
  · simpa using HistoryGrows.refl s
  · have hs := historyGrows_sent s (opFrames s i)
    rcases hend with ⟨-, -, rfl⟩ | ⟨-, -, k, -, -, rfl⟩ | ⟨-, -, -, rfl⟩ | ⟨k, f, -, -, rfl⟩
    · simpa using hs
    · simpa using hs.trans (historyGrows_waited _ k)
    · simpa using hs.trans (historyGrows_timedOut _)
    · simpa using historyGrows_sentUpTo s _ k f
  · have hs := historyGrows_initSent s
    rcases hend with ⟨-, k, -, -, rfl⟩ | ⟨-, -, rfl⟩ | ⟨k, f, -, -, rfl⟩ |
      ⟨k, f, -, -, j, -, -, rfl⟩
    · simpa using (hs.trans (historyGrows_waited _ k)).trans (historyGrows_sent _ _)
    · simpa using hs.trans (historyGrows_timedOut _)
    · simpa using (historyGrows_pulsed s).trans (historyGrows_sentUpTo _ _ k f)
    · simpa using (hs.trans (historyGrows_waited _ j)).trans (historyGrows_sentUpTo _ _ k f)

theorem exec_historyGrows {i : Instr} {s t : State} (h : exec i s = .next t) : HistoryGrows s t :=
  (isFb_or_isDc i).elim (exec_fb_historyGrows · h) (exec_dc_historyGrows · h)

/-! ### Steps -/

/-- The moves other than GO and block reset write no field that `HistoryGrows` reads. -/
theorem step_historyGrows {s t : State} (h : step s = .next t) : HistoryGrows s t := by
  rcases step_cases h with ⟨-, rfl⟩ | ⟨rest, ⟨i, v, -, rfl⟩ | ⟨a, v, -, -, rfl⟩ | ⟨i, -, -, he⟩ |
    ⟨e, -, -, rfl⟩ | ⟨-, rfl⟩⟩
  · exact HistoryGrows.refl _
  · simpa using HistoryGrows.refl s
  · simpa using HistoryGrows.refl s
  · simpa using exec_historyGrows he
  · simpa using HistoryGrows.refl s
  · simpa using historyGrows_blockReset (s.setHost rest)

/-- Settles O53: by cases on the host's move, and for GO on how the operation ends. -/
theorem historyOnlyGrows : Obligations.HistoryOnlyGrows := by
  unfold Obligations.HistoryOnlyGrows
  intro s t h
  obtain ⟨⟨events, he⟩, hc⟩ := step_historyGrows h
  exact ⟨⟨events, he.symm⟩, hc⟩

end Sys2Proof.Machine

/-! The invariant of a state between operations: power-on meets it, and every step keeps it. -/

namespace Sys2Proof.Machine

/-! ### Events that carry bytes (R10) -/

/-- Every `Bus` event of a list carries bytes. -/
def AllCarryBytes (h : List Event) : Prop := ∀ e ∈ h, carriesBytes e = true

theorem allCarryBytes_append {h h' : List Event} :
    AllCarryBytes (h ++ h') ↔ AllCarryBytes h ∧ AllCarryBytes h' := List.forall_mem_append

/-- The frames of a sequence are never empty: a command byte, or data that is not the empty list. -/
theorem seqFrames_bytes {p : Params} {ts : List Xfer} {f : Frame} (h : f ∈ seqFrames p ts) :
    f.bytes ≠ [] := by
  obtain ⟨t, -, hf⟩ := List.mem_flatMap.mp h
  rcases List.mem_cons.mp hf with rfl | hf
  · exact List.cons_ne_nil _ _
  · split at hf
    case isTrue => exact nomatch hf
    case isFalse hd =>
      rw [List.mem_singleton.mp hf]
      exact hd

theorem tableFrames_bytes {s : State} {f : Frame} (h : f ∈ tableFrames s) : f.bytes ≠ [] :=
  seqFrames_bytes (ts := [defaultTable s.cfg.pv]) (by rwa [seqFrames_singleton])

theorem allCarryBytes_frameEvents {p : Params} {fs : List Frame} (h : ∀ f ∈ fs, f.bytes ≠ []) :
    AllCarryBytes (fs.flatMap (frameEvents p)) := by
  intro e he
  obtain ⟨f, hf, hef⟩ := List.mem_flatMap.mp he
  have hb := h f hf
  simp only [frameEvents, List.mem_cons, List.not_mem_nil, or_false] at hef
  rcases hef with rfl | rfl | rfl | rfl <;> simp [carriesBytes, hb]

theorem allCarryBytes_failedEvents {p : Params} {f : Frame} (h : f.bytes ≠ []) :
    AllCarryBytes (failedEvents p f) := by simp [AllCarryBytes, failedEvents, carriesBytes, h]

theorem allCarryBytes_pollEvents (p : Params) (n : Nat) : AllCarryBytes (pollEvents p n) := by
  induction n with
  | zero => exact nofun
  | succ n ih => simpa [AllCarryBytes, pollEvents, carriesBytes] using ih

theorem allCarryBytes_waitEvents (p : Params) (k : Nat) : AllCarryBytes (waitEvents p k) :=
  allCarryBytes_append.mpr
    ⟨allCarryBytes_pollEvents p k, by simp [AllCarryBytes, carriesBytes]⟩

theorem allCarryBytes_pulseEvents (p : Params) : AllCarryBytes (pulseEvents p) := by
  simp [AllCarryBytes, pulseEvents, carriesBytes]

/-! ### Register writes -/

theorem inv_setResult {s : State} (h : Inv s) (c : ResultCode) : Inv (s.setResult c) := { h with }

theorem inv_setRet0 {s : State} (h : Inv s) (v : Word) : Inv (s.setRet0 v) := { h with }

theorem inv_setRet1 {s : State} (h : Inv s) (v : Word) : Inv (s.setRet1 v) := { h with }

theorem inv_setOpw {s : State} (h : Inv s) (d : Descriptor) : Inv (s.setOpw d) := { h with }

theorem inv_setFb {s : State} (h : Inv s) {fb : FbRegs} (hfb : FbInv s.cfg fb) :
    Inv (s.setFb fb) := { h with fb := hfb }

/-- The framebuffer invariant speaks of no rotation (R27). -/
theorem fbInv_rot {p : Params} {fb : FbRegs} (h : FbInv p fb) (r : Rotation) :
    FbInv p { fb with rot := r } := { h with }

/-- An operation that ends with a controller state other than `Uninit`. -/
theorem inv_setDcu {s : State} (h : Inv s) {d : DcRegs}
    (hd : d.state = .idle ∨ d.state = .sleeping ∨ d.state = .faulted) : Inv (s.setDcu d) :=
  { h with
    settled := .inr hd
    fresh := fun hu => by rcases hd with hd | hd | hd <;> exact nomatch hd.symm.trans hu }

theorem inv_setHost {s : State} (h : Inv s) {m : HostMove} {rest : List HostMove}
    (hh : s.host = m :: rest) : Inv (s.setHost rest) :=
  { h with hostStores := fun a v hm => h.hostStores a v (hh ▸ List.mem_cons_of_mem m hm) }

/-! ### Memory -/

theorem inv_write {s : State} (h : Inv s) {a : Nat} (ha : a < s.cfg.memBytes) (v : Byte) :
    Inv (s.setMem (Memory.write s.mem a v)) :=
  { h with
    canonical := Memory.write_wf h.canonical a v
    inMemory := Memory.write_below h.inMemory ha v }

theorem inv_fill {s : State} {v : Byte} {a n : Nat} {m : Memory} (h : Inv s)
    (hf : State.fill v a n s = some (s.setMem m)) : Inv (s.setMem m) := by
  obtain ⟨m', hm, hwf, hbelow⟩ := State.fill_keeps hf
  have hm : m = m' := congrArg State.mem hm
  exact { h with canonical := hm ▸ hwf h.canonical, inMemory := hm ▸ hbelow h.inMemory }

/-! ### Sequences of the controller -/

@[simp] theorem linesAfter_rst (p : Params) (l : Lines) (fs : List Frame) :
    (linesAfter p l fs).rst = l.rst := by
  unfold linesAfter
  cases fs.getLast? <;> rfl

theorem inv_sent {s : State} (h : Inv s) {fs : List Frame} (hfs : ∀ f ∈ fs, f.bytes ≠ []) :
    Inv (sent s fs) :=
  { h with
    resetHigh := (linesAfter_rst s.cfg s.lines fs).trans h.resetHigh
    busBytes := allCarryBytes_append.mpr ⟨h.busBytes, allCarryBytes_frameEvents hfs⟩ }

theorem inv_sentUpTo {s : State} (h : Inv s) {fs : List Frame} {k : Nat} {f : Frame}
    (hfs : ∀ f ∈ fs, f.bytes ≠ []) (hf : fs[k]? = some f) : Inv (sentUpTo s fs k f) :=
  { h with
    busBytes := allCarryBytes_append.mpr
      ⟨allCarryBytes_append.mpr ⟨h.busBytes,
        allCarryBytes_frameEvents fun g hg => hfs g (List.mem_of_mem_take hg)⟩,
      allCarryBytes_failedEvents (hfs f (List.mem_of_getElem? hf))⟩ }

theorem inv_waited {s : State} (h : Inv s) (k : Nat) : Inv (waited s k) :=
  { h with busBytes := allCarryBytes_append.mpr ⟨h.busBytes, allCarryBytes_waitEvents s.cfg k⟩ }

theorem inv_timedOut {s : State} (h : Inv s) : Inv (timedOut s) :=
  { h with busBytes := allCarryBytes_append.mpr ⟨h.busBytes, allCarryBytes_pollEvents s.cfg _⟩ }

/-- The reset pulse ends with the reset line high (R151). -/
theorem inv_pulsed {s : State} (h : Inv s) : Inv (pulsed s) :=
  { h with
    resetHigh := rfl
    busBytes := allCarryBytes_append.mpr ⟨h.busBytes, allCarryBytes_pulseEvents s.cfg⟩ }

/-! ### Operations -/

theorem exec_fb_inv {i : Instr} {s t : State} (hi : isFb i = true) (hs : Inv s)
    (h : exec i s = .next t) : Inv t := by
  rcases fb_cases hi h with ⟨-, ht⟩ | ⟨w, ht, b, l, -, hw, hm, hl, rfl⟩ | ⟨r, rot, -, -, -, rfl⟩ |
    ⟨color, c, m, -, -, -, hf, rfl⟩ | ⟨x, y, color, c, -, -, -, ⟨-, rfl⟩ | ⟨a, mask, -, ha, rfl⟩⟩ |
    ⟨x, y, v, -, -, rfl⟩ | ⟨-, -, rfl⟩
  · rw [ht]
    exact inv_setResult hs _
  · exact inv_setResult (inv_setFb hs ⟨fun _ => hw, fun _ => hl, fun _ => hm⟩) _
  · exact inv_setResult (inv_setFb hs (fbInv_rot hs.fb rot)) _
  · exact inv_setResult (inv_fill hs hf) _
  · exact inv_setResult hs _
  · exact inv_setResult (inv_write hs ha _) _
  · exact inv_setResult (inv_setRet0 hs v) _
  · exact inv_setResult (inv_setRet1 (inv_setRet0 hs _) _) _

/-- An operation that needs an idle controller ends with it idle or sleeping. -/
theorem okRegs_idle_or_sleeping {d : DcRegs} (h : d.state = .idle) (i : Instr) :
    (okRegs d i).state = .idle ∨ (okRegs d i).state = .sleeping := by
  by_cases hi : i = .dcSleep
  · exact .inr (by rw [hi]; rfl)
  · exact .inl ((okRegs_state hi).trans h)

theorem exec_dc_inv {i : Instr} {s t : State} (hi : isDc i = true) (hs : Inv s)
    (h : exec i s = .next t) : Inv t := by
  have hop : ∀ f ∈ opFrames s i, f.bytes ≠ [] := fun f => seqFrames_bytes
  have hinit : ∀ f ∈ initFrames s, f.bytes ≠ [] := fun f => seqFrames_bytes
  have htable : ∀ f ∈ tableFrames s, f.bytes ≠ [] := fun f => tableFrames_bytes
  rcases dc_cases hi h with ⟨c, -, rfl⟩ | ⟨-, hr, hend⟩ | ⟨-, -, hend⟩
  · exact inv_setResult hs c
  · have hsent := inv_sent hs hop
    rcases hend with ⟨-, -, rfl⟩ | ⟨-, -, k, -, -, rfl⟩ | ⟨-, -, -, rfl⟩ | ⟨k, f, -, hf, rfl⟩
    · exact inv_setDcu (inv_setResult hsent _)
        ((okRegs_idle_or_sleeping hr.idle i).imp_right .inl)
    · exact inv_setResult (inv_waited hsent k) _
    · exact inv_setDcu (inv_setResult (inv_timedOut hsent) _) (.inr (.inr rfl))
    · exact inv_setDcu (inv_setResult (inv_sentUpTo hs hop hf) _) (.inr (.inr rfl))
  · have hsent := inv_sent (inv_pulsed hs) hinit
    rcases hend with ⟨-, k, -, -, rfl⟩ | ⟨-, -, rfl⟩ | ⟨k, f, -, hf, rfl⟩ |
      ⟨k, f, -, hf, j, -, -, rfl⟩
    · exact inv_setDcu (inv_setResult (inv_sent (inv_waited hsent k) htable) _) (.inl rfl)
    · exact inv_setDcu (inv_setResult (inv_timedOut hsent) _) (.inr (.inr rfl))
    · exact inv_setDcu (inv_setResult (inv_sentUpTo (inv_pulsed hs) hinit hf) _) (.inr (.inr rfl))
    · exact inv_setDcu (inv_setResult (inv_sentUpTo (inv_waited hsent j) htable hf) _)
        (.inr (.inr rfl))

theorem exec_inv {i : Instr} {s t : State} (hs : Inv s) (h : exec i s = .next t) : Inv t :=
  (isFb_or_isDc i).elim (exec_fb_inv · hs h) (exec_dc_inv · hs h)

/-! ### Power-on, block reset and steps -/

/-- No framebuffer is valid after a reset, so R27 asks nothing. -/
theorem fbInv_reset (p : Params) : FbInv p ⟨false, 0, 0, .rotate0, 0, 0⟩ := ⟨nofun, nofun, nofun⟩

theorem inv_blockReset {s : State} (h : Inv s) : Inv (blockReset s) :=
  { h with
    fb := fbInv_reset s.cfg
    settled := .inl rfl
    fresh := fun _ => rfl
    resetHigh := rfl
    busBytes := allCarryBytes_append.mpr ⟨h.busBytes, by simp [AllCarryBytes, carriesBytes]⟩ }

/-- Settles O56: the parameters are the implementation's own, and memory lists nothing. -/
theorem powerOnMeetsTheInvariant : Obligations.PowerOnMeetsTheInvariant := by
  unfold Obligations.PowerOnMeetsTheInvariant
  exact
    { params := Config.implementation.valid
      fb := fbInv_reset _
      settled := .inl rfl
      fresh := fun _ => rfl
      resetHigh := rfl
      canonical := rfl
      inMemory := rfl
      busBytes := by simp [State.reset, carriesBytes]
      hostStores := nofun }

theorem step_inv {s t : State} (hs : Inv s) (h : step s = .next t) : Inv t := by
  rcases step_cases h with ⟨-, rfl⟩ | ⟨rest, ⟨i, v, hh, rfl⟩ | ⟨a, v, hh, ha, rfl⟩ |
    ⟨i, hh, -, he⟩ | ⟨e, hh, -, rfl⟩ | ⟨hh, rfl⟩⟩
  · exact hs
  · exact inv_setOpw (inv_setHost hs hh) _
  · exact inv_write (inv_setHost hs hh) ha v
  · exact exec_inv (inv_setHost hs hh) he
  · exact inv_setResult (inv_setHost hs hh) _
  · exact inv_blockReset (inv_setHost hs hh)

/-- Settles O57: by cases on the host's move, and for GO on how the operation ends. -/
theorem everyStepKeepsTheInvariant : Obligations.EveryStepKeepsTheInvariant := by
  unfold Obligations.EveryStepKeepsTheInvariant
  exact fun s t => step_inv

end Sys2Proof.Machine

/-! The host's moves: operand writes, GO and block reset, and the seven writes and a GO that start one
operation. -/

namespace Sys2Proof.Machine

/-! ### Operand writes and GO -/

/-- Read after write of the operand registers (R21). -/
theorem operandWord_setOperandWord (d : Descriptor) (i j : Fin 7) (v : Word) :
    operandWord (setOperandWord d i v) j = if j = i then v else operandWord d j := by
  fin_cases i <;> fin_cases j <;> rfl

theorem step_writeOpw {s : State} {i : Fin 7} {v : Word} {rest : List HostMove}
    (h : s.host = .writeOpw i v :: rest) :
    step s = .next ((s.setHost rest).setOpw (setOperandWord s.opw i v)) := step_move h

theorem step_go {s : State} {i : Instr} {rest : List HostMove} (h : s.host = .go :: rest)
    (hd : decode s.opw = .ok i) : step s = exec i (s.setHost rest) :=
  (step_move h).trans (runDescriptor_ok hd)

theorem step_reset {s : State} {rest : List HostMove} (h : s.host = .reset :: rest) :
    step s = .next (blockReset (s.setHost rest)) := step_move h

/-- Settles O5: GO decodes the operand registers, which taking the move off the list leaves alone. -/
theorem goRunsTheDecodedOperation : Obligations.GoRunsTheDecodedOperation := by
  unfold Obligations.GoRunsTheDecodedOperation
  exact fun s rest i => step_go

/-- Settles O9, by read after write of the operand registers. -/
theorem hostWritesOneOperandWord : Obligations.HostWritesOneOperandWord := by
  unfold Obligations.HostWritesOneOperandWord
  intro s rest i v h
  refine ⟨_, step_writeOpw h, rfl, ?_, fun j hj => ?_⟩
  · rw [State.setOpw_opw, operandWord_setOperandWord, if_pos rfl]
  · rw [State.setOpw_opw, operandWord_setOperandWord, if_neg hj]

/-! ### Starting an operation (R25) -/

/-- The first move of a run that writes an operand register. -/
theorem run_writeOpw (n : Nat) (s : State) (i : Fin 7) (v : Word) (rest : List HostMove) :
    Host.Core.run Sys2Proof.core (n + 1) (s.setHost (.writeOpw i v :: rest)) =
      Host.Core.run Sys2Proof.core n ((s.setOpw (setOperandWord s.opw i v)).setHost rest) :=
  run_next (step_writeOpw (s := s.setHost (.writeOpw i v :: rest)) rfl) n

@[simp] theorem State.setOpw_setOpw (s : State) (c d : Descriptor) :
    (s.setOpw c).setOpw d = s.setOpw d := rfl

/-- The seven words of a descriptor written over any other make it that descriptor. -/
theorem setOperandWord_all (c d : Descriptor) :
    setOperandWord (setOperandWord (setOperandWord (setOperandWord (setOperandWord (setOperandWord
      (setOperandWord c 0 d.w0) 1 d.w1) 2 d.w2) 3 d.w3) 4 d.w4) 5 d.w5) 6 d.w6 = d := by
  simp [setOperandWord]

/-- The seven writes leave the descriptor in the operand registers, whatever they held. -/
theorem run_startMoves (s : State) (d : Descriptor) (rest : List HostMove) :
    Host.Core.run Sys2Proof.core 8 (s.setHost (startMoves d ++ rest)) =
      step ((s.setOpw d).setHost (.go :: rest)) := by
  simp only [startMoves, List.cons_append, List.nil_append, run_writeOpw, run_one,
    State.setOpw_opw, State.setOpw_setOpw, setOperandWord_all]
  rfl

/-- Settles O7: seven writes fill the operand registers, and the GO runs what they decode to. -/
theorem startMovesRunTheDescriptor : Obligations.StartMovesRunTheDescriptor := by
  unfold Obligations.StartMovesRunTheDescriptor
  intro s d rest i hd
  rw [run_startMoves]
  exact step_go (s := (s.setOpw d).setHost (.go :: rest)) rfl hd

/-! ### Reset values (R39) -/

/-- Settles O11: a block reset takes no answer, and its state is written out in R39. -/
theorem blockResetRestoresResetValues : Obligations.BlockResetRestoresResetValues := by
  unfold Obligations.BlockResetRestoresResetValues
  intro s rest h
  exact ⟨_, step_reset h, rfl, rfl, rfl, rfl, rfl, rfl, rfl, rfl,
    State.load_congr (s := s) rfl rfl, rfl, rfl, rfl, rfl⟩

/-- Settles O12: each register's field at power-on, under the encodings of R13 and R200. -/
theorem powerOnState : Obligations.PowerOnState := by
  unfold Obligations.PowerOnState
  exact ⟨rfl, rfl, rfl, rfl, rfl, rfl, rfl, rfl, rfl, rfl, rfl, rfl, rfl, rfl, rfl⟩

end Sys2Proof.Machine

/-! What an operation leaves unchanged: the frame of each family, the writers of the controller's flags and
of the return registers, and the framebuffer registers that no controller operation reads. -/

namespace Sys2Proof.Machine

/-! ### The frame of a framebuffer operation (R40, R118, R121) -/

/-- A load depends on the memory's size and on what the memory reads as. -/
theorem State.load_of_read {s t : State} {a : Nat} (hc : t.cfg = s.cfg)
    (hr : Memory.read t.mem a = Memory.read s.mem a) : t.load a = s.load a := by
  simp [State.load, hc, hr]

/-- A fill that ends changes no byte outside its region. -/
theorem State.fill_read_outside {v : Byte} {a n b : Nat} {s : State} {m : Memory}
    (h : a + n ≤ s.cfg.memBytes) (hm : Memory.wf s.mem = true)
    (hf : State.fill v a n s = some (s.setMem m)) (hb : ¬ (a ≤ b ∧ b < a + n)) :
    Memory.read m b = Memory.read s.mem b := by
  obtain ⟨m', hf', -, hr⟩ := State.fill_spec (v := v) h hm
  have hmm : m = m' := congrArg State.mem (Option.some.inj (hf.symm.trans hf'))
  rw [hmm, hr, if_neg hb]

/-- Only `fb.clear` and `fb.pix` write memory. -/
theorem exec_fb_mem {i : Instr} {s t : State} (hi : isFb i = true) (h : exec i s = .next t)
    (hclear : ∀ c, i ≠ .fbClear c) (hpix : ∀ x y c, i ≠ .fbPix x y c) : t.mem = s.mem := by
  rcases fb_cases hi h with ⟨-, ht⟩ | ⟨_, _, _, _, -, -, -, -, rfl⟩ | ⟨_, _, -, -, -, rfl⟩ |
    ⟨c, _, _, hc, -⟩ | ⟨x, y, c, _, hp, -⟩ | ⟨_, _, _, -, -, rfl⟩ | ⟨-, -, rfl⟩
  case inl => rw [ht]; rfl
  case inr.inr.inr.inl => exact absurd hc (hclear c)
  case inr.inr.inr.inr.inl => exact absurd hp (hpix x y c)
  all_goals rfl

/-- No framebuffer operation writes a byte outside the bitmap. -/
theorem exec_fb_outside {i : Instr} {s t : State} (hi : isFb i = true) (hfb : FbInv s.cfg s.fb)
    (hm : Memory.wf s.mem = true) (h : exec i s = .next t) {a : Nat} (ha : ¬ InBitmap s.fb a) :
    Memory.read t.mem a = Memory.read s.mem a := by
  rcases fb_cases hi h with ⟨-, ht⟩ | ⟨_, _, _, _, -, -, -, -, rfl⟩ | ⟨_, _, -, -, -, rfl⟩ |
    ⟨_, _, _, -, hv, -, hf, rfl⟩ | ⟨_, _, _, _, -, hv, -, ⟨-, rfl⟩ | ⟨b, _, hl, -, rfl⟩⟩ |
    ⟨_, _, _, -, -, rfl⟩ | ⟨-, -, rfl⟩
  case inl => rw [ht]; rfl
  case inr.inr.inr.inl => exact State.fill_read_outside (hfb.inMemory hv) hm hf ha
  case inr.inr.inr.inr.inl.inr =>
    have hab : a ≠ b := fun hab => ha (hab ▸ locate_in_bitmap hfb hv hl)
    exact (Memory.read_write hm b a _).trans (if_neg hab)
  all_goals rfl

/-- Only `fb.new` and `fb.rot` write a framebuffer register, and `fb.rot` only the rotation. -/
theorem exec_fb_regs {i : Instr} {s t : State} (hi : isFb i = true) (h : exec i s = .next t)
    (hnew : ∀ w ht b l, i ≠ .fbNew w ht b l) :
    t.fb = { s.fb with rot := t.fb.rot } ∧ ((∀ r, i ≠ .fbRot r) → t.fb = s.fb) := by
  rcases fb_cases hi h with ⟨-, ht⟩ | ⟨w, ht, b, l, hn, -⟩ | ⟨r, _, hr, -, -, rfl⟩ |
    ⟨_, _, _, -, -, -, -, rfl⟩ | ⟨_, _, _, _, -, -, -, ⟨-, rfl⟩ | ⟨_, _, -, -, rfl⟩⟩ |
    ⟨_, _, _, -, -, rfl⟩ | ⟨-, -, rfl⟩
  case inl => rw [ht]; exact ⟨rfl, fun _ => rfl⟩
  case inr.inl => exact absurd hn (hnew w ht b l)
  case inr.inr.inl => exact ⟨rfl, fun hrot => absurd hr (hrot r)⟩
  all_goals exact ⟨rfl, fun _ => rfl⟩

/-- Settles O20: by the cases of `fb_cases`; what is written lies in the bitmap by R27. -/
theorem framebufferFrame : Obligations.FramebufferFrame := by
  unfold Obligations.FramebufferFrame
  intro i s t hi hfb hm h
  have hframe := fbFrame_of_exec hi h
  refine ⟨hframe, fun a ha => State.load_of_read hframe.cfg (exec_fb_outside hi hfb hm h ha),
    fun hclear hpix => ?_, fun hnew => (exec_fb_regs hi h hnew).1,
    fun hnew => (exec_fb_regs hi h hnew).2⟩
  have hmem := exec_fb_mem hi h hclear hpix
  exact ⟨State.load_congr hframe.cfg hmem, hmem⟩

/-! ### The frame of a controller operation (R40) -/

/-- A controller operation writes none of the fields of `DcFrame`, and no byte of memory. -/
theorem dcFrame_of_exec {i : Instr} {s t : State} (hi : isDc i = true) (h : exec i s = .next t) :
    DcFrame s t ∧ t.mem = s.mem := by
  rcases dc_cases hi h with ⟨_, -, rfl⟩ |
    ⟨-, -, ⟨-, -, rfl⟩ | ⟨-, -, _, -, -, rfl⟩ | ⟨-, -, -, rfl⟩ | ⟨_, _, -, -, rfl⟩⟩ |
    ⟨-, -, ⟨-, _, -, -, rfl⟩ | ⟨-, -, rfl⟩ | ⟨_, _, -, -, rfl⟩ | ⟨_, _, -, -, _, -, -, rfl⟩⟩
  all_goals
    refine ⟨⟨?_, ?_, ?_, ?_, ?_, State.load_congr ?_ ?_, ?_, ?_⟩, ?_⟩ <;> simp

/-- Only `dc.init` drives the reset line (R151). -/
theorem exec_dc_rst {i : Instr} {s t : State} (hi : isDc i = true) (hn : i ≠ .dcInit)
    (h : exec i s = .next t) : t.lines.rst = s.lines.rst := by
  rcases dc_cases hi h with ⟨_, -, rfl⟩ |
    ⟨-, -, ⟨-, -, rfl⟩ | ⟨-, -, _, -, -, rfl⟩ | ⟨-, -, -, rfl⟩ | ⟨_, _, -, -, rfl⟩⟩ | ⟨hinit, -⟩
  case inr.inr => exact absurd hinit hn
  all_goals simp

/-- Settles O47, by cases on how the operation ends. -/
theorem controllerFrame : Obligations.ControllerFrame := by
  unfold Obligations.ControllerFrame
  intro i s t hi h
  obtain ⟨hframe, hmem⟩ := dcFrame_of_exec hi h
  exact ⟨hframe, hmem, fun hn => exec_dc_rst hi hn h⟩

/-! ### The return registers (R23) -/

/-- The writers of RET0 and RET1 among the operations. -/
theorem exec_ret {i : Instr} {s t : State} (h : exec i s = .next t) :
    (t.ret0 = s.ret0 ∨ (t.result = .ok ∧ ((∃ x y, i = .fbGet x y) ∨ i = .fbBytes))) ∧
    (t.ret1 = s.ret1 ∨ (t.result = .ok ∧ i = .fbBytes)) := by
  rcases isFb_or_isDc i with hi | hi
  · rcases fb_cases hi h with ⟨-, ht⟩ | ⟨_, _, _, _, -, -, -, -, rfl⟩ | ⟨_, _, -, -, -, rfl⟩ |
      ⟨_, _, _, -, -, -, -, rfl⟩ | ⟨_, _, _, _, -, -, -, ⟨-, rfl⟩ | ⟨_, _, -, -, rfl⟩⟩ |
      ⟨x, y, _, hget, -, rfl⟩ | ⟨hbytes, -, rfl⟩
    case inl => rw [ht]; exact ⟨.inl rfl, .inl rfl⟩
    case inr.inr.inr.inr.inr.inl => exact ⟨.inr ⟨rfl, .inl ⟨x, y, hget⟩⟩, .inl rfl⟩
    case inr.inr.inr.inr.inr.inr => exact ⟨.inr ⟨rfl, .inr hbytes⟩, .inr ⟨rfl, hbytes⟩⟩
    all_goals exact ⟨.inl rfl, .inl rfl⟩
  · obtain ⟨hframe, -⟩ := dcFrame_of_exec hi h
    exact ⟨.inl hframe.ret0, .inl hframe.ret1⟩

/-- No move of the host but GO and block reset writes RET0 or RET1, and block reset clears both. -/
theorem step_ret {s t : State} {m : HostMove} {rest : List HostMove} (hh : s.host = m :: rest)
    (hgo : m ≠ .go) (h : step s = .next t) :
    (m = .reset → t.ret0 = 0 ∧ t.ret1 = 0) ∧ (m ≠ .reset → t.ret0 = s.ret0 ∧ t.ret1 = s.ret1) := by
  have hm : ∀ {m' rest'}, s.host = m' :: rest' → m = m' := fun h' =>
    (List.cons.inj (hh.symm.trans h')).1
  rcases step_cases h with ⟨h', -⟩ | ⟨_, ⟨_, _, h', rfl⟩ | ⟨_, _, h', -, rfl⟩ | ⟨_, h', -⟩ |
    ⟨_, h', -⟩ | ⟨h', rfl⟩⟩
  · exact nomatch hh.symm.trans h'
  · exact ⟨fun hr => (nomatch hr.symm.trans (hm h')), fun _ => ⟨rfl, rfl⟩⟩
  · exact ⟨fun hr => (nomatch hr.symm.trans (hm h')), fun _ => ⟨rfl, rfl⟩⟩
  · exact absurd (hm h') hgo
  · exact absurd (hm h') hgo
  · exact ⟨fun _ => ⟨rfl, rfl⟩, fun hr => absurd (hm h') hr⟩

/-- Settles O46: by the writers among the operations and among the host's moves. -/
theorem returnRegistersHaveTwoWriters : Obligations.ReturnRegistersHaveTwoWriters := by
  unfold Obligations.ReturnRegistersHaveTwoWriters
  exact ⟨fun i s t => exec_ret, fun s t m rest => step_ret, rfl, rfl⟩

/-! ### The controller's flags (R30, R31, R32) -/

/-- `dc.init` outside `Faulted` leaves the flags cleared however it ends. -/
theorem exec_dcInit_dcu {s t : State} (hs : s.dcu.state ≠ .faulted)
    (h : exec .dcInit s = .next t) : ∃ x, t.dcu = ⟨x, .none, false, false⟩ := by
  rcases init_cases hs with ⟨-, _, -, -, he⟩ | ⟨-, -, he⟩ | ⟨_, _, -, -, he⟩ |
    ⟨_, _, -, -, _, -, -, he⟩
  all_goals
    obtain rfl := Host.Outcome.next.inj (h.symm.trans he)
    exact ⟨_, rfl⟩

/-- The framebuffer family writes no register of the controller (R118). -/
theorem okRegs_fb {i : Instr} (hi : isFb i = true) (d : DcRegs) : okRegs d i = d := by
  cases i with
  | dcLut _ | dcClrf | dcUpdate _ _ | dcPartial _ _ _ _ _ _ | dcSleep =>
    exact absurd hi Bool.false_ne_true
  | _ => rfl

/-- An operation other than `dc.init` that ends with `Ok` leaves the registers of `okRegs`, and one that
does not changes at most `dc_state`. -/
theorem exec_dcu {i : Instr} {s t : State} (hn : i ≠ .dcInit) (h : exec i s = .next t) :
    (t.result = .ok ∧ (isDc i = true → Runs s i) ∧ t.dcu = okRegs s.dcu i) ∨
    (t.result ≠ .ok ∧ ∃ x, t.dcu = { s.dcu with state := x }) := by
  rcases isFb_or_isDc i with hi | hi
  · have hd := (fbFrame_of_exec hi h).dcu
    by_cases hr : t.result = .ok
    · refine .inl ⟨hr, fun hdc => ?_, ?_⟩
      · simp [isDc, hi] at hdc
      · rw [hd, okRegs_fb hi]
    · exact .inr ⟨hr, s.dcu.state, hd⟩
  · rcases dc_cases hi h with ⟨c, hc, rfl⟩ | ⟨-, hr, hend⟩ | ⟨hinit, -⟩
    · refine .inr ⟨fun hok : c = .ok => ?_, s.dcu.state, rfl⟩
      rw [hok] at hc
      exact Bool.false_ne_true hc
    · rcases hend with ⟨-, -, rfl⟩ | ⟨-, rfl, _, -, -, rfl⟩ | ⟨-, -, -, rfl⟩ | ⟨_, _, -, -, rfl⟩
      · exact .inl ⟨rfl, fun _ => hr, rfl⟩
      · exact .inl ⟨rfl, fun _ => hr, rfl⟩
      · exact .inr ⟨nofun, .faulted, rfl⟩
      · exact .inr ⟨nofun, .faulted, rfl⟩
    · exact absurd hinit hn

theorem okRegs_frameLoaded (d : DcRegs) (i : Instr) :
    (okRegs d i).frameLoaded = true ↔ d.frameLoaded = true ∨
      ((∃ a l, i = .dcUpdate a l) ∨ ∃ a l x y w h, i = .dcPartial a l x y w h) := by
  cases i <;> simp [okRegs]

theorem okRegs_baseline (d : DcRegs) (i : Instr) :
    (okRegs d i).baseline = true ↔ d.baseline = true ∨ i = .dcClrf := by
  cases i <;> simp [okRegs]

theorem okRegs_activeLut_of_ne {i : Instr} (h : ∀ sel, i ≠ .dcLut sel) (d : DcRegs) :
    (okRegs d i).activeLut = d.activeLut := by
  cases i with
  | dcLut sel => exact absurd rfl (h sel)
  | _ => rfl

/-- The waveform that `dc.lut` records is the one its operand encodes (R13). -/
theorem okRegs_activeLut_code {sel : Word} (h : sel.toNat < 3) (d : DcRegs) :
    lutSelCode (okRegs d (.dcLut sel)).activeLut = sel.toNat := by
  obtain ⟨l, hl, hcode, -⟩ := lutSelOfWord_lt h Params.witness.pv
  simpa [okRegs, hl] using hcode

/-- Settles O45: from the registers an operation leaves, flag by flag. -/
theorem flagsFollowTheOperations : Obligations.FlagsFollowTheOperations := by
  unfold Obligations.FlagsFollowTheOperations
  intro i s t h
  refine ⟨?_, fun hn => ?_⟩
  · rintro rfl hs
    obtain ⟨x, hx⟩ := exec_dcInit_dcu hs h
    rw [hx]
    exact ⟨rfl, rfl, rfl⟩
  · rcases exec_dcu hn h with ⟨hok, hruns, hd⟩ | ⟨hok, x, hd⟩
    · simp only [hd, hok, true_and, ne_eq, not_true_eq_false, or_false]
      refine ⟨okRegs_frameLoaded _ _, okRegs_baseline _ _, ?_, fun hne => okRegs_activeLut_of_ne hne _⟩
      rintro sel rfl -
      exact okRegs_activeLut_code (hruns rfl).2 _
    · simp [hd, hok]

end Sys2Proof.Machine

/-! A controller operation does not read the framebuffer registers: every piece of its meaning commutes with
a write of them. -/

namespace Sys2Proof.Machine

/-! ### Ends of sequences under a change of state -/

/-- The state in which a sequence ends, changed. -/
def SendEnd.map (f : State → State) : SendEnd → SendEnd
  | .sent s => .sent (f s)
  | .busFault s => .busFault (f s)

/-- The state in which a busy-wait ends, changed. -/
def WaitEnd.map (f : State → State) : WaitEnd → WaitEnd
  | .ready s => .ready (f s)
  | .timeout s => .timeout (f s)

theorem raise_setFb (c : ResultCode) (s : State) (fb : FbRegs) :
    raise c (s.setFb fb) = (raise c s).setFb fb := by
  unfold raise
  cases isDeviceFailure c <;> rfl

theorem sendSeq_setFb (xs : List Xfer) (s : State) (fb : FbRegs) :
    sendSeq xs (s.setFb fb) = (sendSeq xs s).map (·.setFb fb) := by
  rcases sendSeq_cases xs s with ⟨hok, he⟩ | ⟨k, f, hf, hk, he⟩
  · rw [he, sendSeq_ok (s := s.setFb fb) hok]; rfl
  · rw [he, sendSeq_fails (s := s.setFb fb) hf hk]; rfl

theorem busyWait_setFb (s : State) (fb : FbRegs) :
    busyWait s.cfg.busyMaxPolls (s.setFb fb) =
      (busyWait s.cfg.busyMaxPolls s).map (·.setFb fb) := by
  rcases busyWait_cases s with ⟨k, hk, hr, he⟩ | ⟨hn, he⟩
  · rw [he, busyWait_ready (s := s.setFb fb) hk hr]; rfl
  · rw [he, busyWait_timeout (s := s.setFb fb) hn]; rfl

theorem hardwareReset_setFb (s : State) (fb : FbRegs) :
    hardwareReset (s.setFb fb) = (hardwareReset s).setFb fb := by
  rw [hardwareReset_eq, hardwareReset_eq]; rfl

theorem sendOrRaise_setFb {c : ResultCode} {fb : FbRegs} {k : State → State}
    (hk : ∀ s, k (s.setFb fb) = (k s).setFb fb) (r : SendEnd) :
    (r.map (·.setFb fb)).orRaise c k = (r.orRaise c k).setFb fb := by
  cases r with
  | sent s => exact hk s
  | busFault s => exact raise_setFb c s fb

theorem waitOrRaise_setFb {c : ResultCode} {fb : FbRegs} {k : State → State}
    (hk : ∀ s, k (s.setFb fb) = (k s).setFb fb) (r : WaitEnd) :
    (r.map (·.setFb fb)).orRaise c k = (r.orRaise c k).setFb fb := by
  cases r with
  | ready s => exact hk s
  | timeout s => exact raise_setFb c s fb

/-- A sequence under the end of its operation. -/
theorem sendSeq_orRaise_setFb {c : ResultCode} {fb : FbRegs} {k : State → State}
    (hk : ∀ s, k (s.setFb fb) = (k s).setFb fb) (xs : List Xfer) (s : State) :
    (sendSeq xs (s.setFb fb)).orRaise c k = ((sendSeq xs s).orRaise c k).setFb fb := by
  rw [sendSeq_setFb, sendOrRaise_setFb hk]

theorem sendXfer_orRaise_setFb {c : ResultCode} {fb : FbRegs} {k : State → State}
    (hk : ∀ s, k (s.setFb fb) = (k s).setFb fb) (x : Xfer) (s : State) :
    (sendXfer x (s.setFb fb)).orRaise c k = ((sendXfer x s).orRaise c k).setFb fb := by
  rw [← sendSeq_singleton, ← sendSeq_singleton, sendSeq_orRaise_setFb hk]

/-- A busy-wait under the end of its operation. -/
theorem busyWait_orRaise_setFb {c : ResultCode} {fb : FbRegs} {k : State → State}
    (hk : ∀ s, k (s.setFb fb) = (k s).setFb fb) (s : State) :
    (busyWait s.cfg.busyMaxPolls (s.setFb fb)).orRaise c k =
      ((busyWait s.cfg.busyMaxPolls s).orRaise c k).setFb fb := by
  rw [busyWait_setFb, waitOrRaise_setFb hk]

theorem guarded_setFb {c : Option ResultCode} {s : State} {fb : FbRegs}
    {k k' : Host.Outcome State Fault Refusal} (h : k' = mapNext (·.setFb fb) k) :
    guarded c (s.setFb fb) k' = mapNext (·.setFb fb) (guarded c s k) := by
  cases c with
  | none => exact h
  | some c => exact congrArg Host.Outcome.next (raise_setFb c s fb)

theorem mapNext_next (f : State → State) (s : State) : mapNext f (.next s) = .next (f s) := rfl

theorem mapNext_onAccess {α : Type} (f : State → State) (r : Option α)
    (k : α → Host.Outcome State Fault Refusal) :
    mapNext f (onAccess r k) = onAccess r fun x => mapNext f (k x) := by cases r <;> rfl

/-! ### Reading memory -/

theorem readSlice_setFb (s : State) (fb : FbRegs) (a n : Nat) :
    (s.setFb fb).readSlice a n = s.readSlice a n := by
  induction n generalizing a with
  | zero => rfl
  | succ n ih => rw [State.readSlice, State.readSlice, ih]; rfl

theorem extractRows_setFb (s : State) (fb : FbRegs) (addr x w r n : Nat) :
    extractRows (s.setFb fb) addr x w r n = extractRows s addr x w r n := by
  induction n generalizing r with
  | zero => rfl
  | succ n ih => rw [extractRows, extractRows, ih, readSlice_setFb]; rfl

theorem extract_setFb (s : State) (fb : FbRegs) (addr : Nat) (win : Window) :
    extract (s.setFb fb) addr win = extract s addr win := extractRows_setFb ..

/-! ### The seven operations -/

/-- An operation whose end is one state, after its state check. -/
theorem guarded_next_setFb {c : Option ResultCode} {s : State} {fb : FbRegs} {u u' : State}
    (h : u' = u.setFb fb) :
    guarded c (s.setFb fb) (.next u') = mapNext (·.setFb fb) (guarded c s (.next u)) :=
  guarded_setFb (congrArg Host.Outcome.next h)

theorem initSequence_setFb (s : State) (fb : FbRegs) :
    initSequence (s.setFb fb) = (initSequence s).setFb fb := by
  show (sendSeq s.cfg.pv.initSeq
    (hardwareReset ((s.setDcu ⟨.initializing, .none, false, false⟩).setFb fb))).orRaise _ _ = _
  rw [hardwareReset_setFb]
  exact sendSeq_orRaise_setFb (fun u => busyWait_orRaise_setFb
    (fun v => sendXfer_orRaise_setFb (fun _ => rfl) _ v) u) _ _

theorem execDcLut_setFb (sel : Word) (s : State) (fb : FbRegs) :
    execDcLut sel (s.setFb fb) = mapNext (·.setFb fb) (execDcLut sel s) := by
  refine guarded_next_setFb ?_
  cases lutSelOfWord sel with
  | none => exact raise_setFb _ s fb
  | some l => exact sendXfer_orRaise_setFb (fun _ => rfl) _ s

theorem execDcUpdate_setFb (addr len : Word) (s : State) (fb : FbRegs) :
    execDcUpdate addr len (s.setFb fb) = mapNext (·.setFb fb) (execDcUpdate addr len s) := by
  have hsend : ∀ x, (sendXfer x ((s.setFb fb).setDcState .updating)).orRaise .cmdBusFault
      transferDone = _ := fun x =>
    sendXfer_orRaise_setFb (fb := fb) (fun _ => rfl) x (s.setDcState .updating)
  refine guarded_setFb ?_
  simp only [apply_ite (mapNext _), mapNext_onAccess, readSlice_setFb, hsend, raise_setFb, mapNext_next,
    State.setFb_cfg]

theorem execDcPartial_setFb (addr len x y w h : Word) (s : State) (fb : FbRegs) :
    execDcPartial addr len x y w h (s.setFb fb) =
      mapNext (·.setFb fb) (execDcPartial addr len x y w h s) := by
  have hsend : ∀ xs, (sendSeq xs ((s.setFb fb).setDcState .updating)).orRaise .cmdBusFault
      transferDone = _ := fun xs =>
    sendSeq_orRaise_setFb (fb := fb) (fun _ => rfl) xs (s.setDcState .updating)
  refine guarded_setFb ?_
  simp only [apply_ite (mapNext _), mapNext_onAccess, extract_setFb, hsend, raise_setFb, mapNext_next,
    State.setFb_cfg]

/-- Settles O48, operation by operation: each is a state check, reads of memory, sequences and a
busy-wait, and all of these commute with a write of the framebuffer registers. -/
theorem controllerIgnoresFramebuffer : Obligations.ControllerIgnoresFramebuffer := by
  unfold Obligations.ControllerIgnoresFramebuffer
  intro i s fb hi
  cases i with
  | dcInit => exact guarded_next_setFb (initSequence_setFb s fb)
  | dcLut sel => exact execDcLut_setFb sel s fb
  | dcClrf =>
    exact guarded_next_setFb (sendSeq_orRaise_setFb (fun _ => rfl) _ (s.setDcState .updating))
  | dcUpdate addr len => exact execDcUpdate_setFb addr len s fb
  | dcPartial addr len x y w h => exact execDcPartial_setFb addr len x y w h s fb
  | dcDisplay =>
    exact guarded_next_setFb (sendSeq_orRaise_setFb
      (fun u => busyWait_orRaise_setFb (fun _ => rfl) u) _ (s.setDcState .displaying))
  | dcSleep => exact guarded_next_setFb (sendSeq_orRaise_setFb (fun _ => rfl) _ s)
  | _ => exact absurd hi Bool.false_ne_true

end Sys2Proof.Machine

/-! Frame memory and its bounds: what the host's store does, and that in a state that meets the invariant
no access leaves memory, so that every step answers a next state. -/

namespace Sys2Proof.Machine

/-! ### The host's store (R240) -/

/-- Read after write of frame memory at an address that exists (R61). -/
theorem State.load_write {s : State} {a : Nat} (hm : Memory.wf s.mem = true) (ha : a < s.cfg.memBytes)
    (v : Byte) (b : Nat) :
    (s.setMem (Memory.write s.mem a v)).load b = if b = a then some v else s.load b := by
  have hread := Memory.read_write hm a b v
  by_cases hb : b = a
  · rw [if_pos hb] at hread ⊢
    rw [State.load_eq_some (hb ▸ ha), State.setMem_mem, hread]
  · rw [if_neg hb] at hread ⊢
    exact State.load_of_read rfl hread

/-- Settles O8, by read after write. That the step stops at an address that does not exist is the model's
choice (log entry 9). -/
theorem hostStoreWritesOneByte : Obligations.HostStoreWritesOneByte := by
  unfold Obligations.HostStoreWritesOneByte
  intro s rest a v h hm
  refine ⟨fun ha => ⟨_, (step_store h).trans (if_pos ha), rfl, ?_⟩,
    fun ha => (step_store h).trans (if_neg (Nat.not_lt.mpr ha))⟩
  exact State.load_write (s := s.setHost rest) hm ha v

/-! ### Operations answer a next state (R63) -/

/-- A state check never stops the machine: what it refuses ends with a result code. -/
theorem guarded_answers {c : Option ResultCode} {s : State} {k : Host.Outcome State Fault Refusal}
    (hk : ∃ t, k = .next t) : ∃ t, guarded c s k = .next t := by
  cases c with
  | none => exact hk
  | some c => exact ⟨_, guarded_some c s k⟩

/-- What follows the state check of a framebuffer operation may rely on a valid framebuffer (R118). -/
theorem fbGuarded_answers {s : State} {k : Host.Outcome State Fault Refusal}
    (hk : s.fb.valid = true → ∃ t, k = .next t) : ∃ t, guarded (fbPrecheck s.fb) s k = .next t := by
  rcases fbPrecheck_cases s k with ⟨-, he⟩ | ⟨hv, he⟩
  · exact ⟨_, he⟩
  · rw [he]
    exact hk hv

theorem onAccess_answers {α : Type} {r : Option α} {x : α}
    {k : α → Host.Outcome State Fault Refusal} (hr : r = some x) (hk : ∃ t, k x = .next t) :
    ∃ t, onAccess r k = .next t := hr ▸ hk

/-- A framebuffer operation accesses the bitmap alone, which R27 keeps inside memory. -/
theorem exec_fb_answers {i : Instr} {s : State} (hi : isFb i = true) (hfb : FbInv s.cfg s.fb)
    (hm : Memory.wf s.mem = true) : ∃ t, exec i s = .next t := by
  have hlocate : ∀ {x y a mask}, s.fb.valid = true → locate s.fb x y = some (a, mask) →
      a < s.cfg.memBytes := fun hv hl => inBitmap_lt hfb hv (locate_in_bitmap hfb hv hl)
  cases i with
  | fbNew _ _ _ _ => exact ⟨_, rfl⟩
  | fbRot _ => exact guarded_answers ⟨_, rfl⟩
  | fbClear color =>
    refine fbGuarded_answers fun hv => ?_
    cases colorOfWord color with
    | none => exact ⟨_, rfl⟩
    | some c =>
      obtain ⟨m, hf, -⟩ := State.fill_spec (v := colorByte c) (hfb.inMemory hv) hm
      exact onAccess_answers hf ⟨_, rfl⟩
  | fbPix x y color =>
    refine fbGuarded_answers fun hv => ?_
    cases colorOfWord color with
    | none => exact ⟨_, rfl⟩
    | some c =>
      cases hl : locate s.fb x.toNat y.toNat with
      | none => exact ⟨_, rfl⟩
      | some p =>
        have ha := hlocate hv hl
        exact onAccess_answers (State.load_eq_some ha)
          (onAccess_answers (State.store_eq_some ha _) ⟨_, rfl⟩)
  | fbGet x y =>
    refine fbGuarded_answers fun hv => ?_
    cases hl : locate s.fb x.toNat y.toNat with
    | none => exact ⟨_, rfl⟩
    | some p => exact onAccess_answers (State.load_eq_some (hlocate hv hl)) ⟨_, rfl⟩
  | fbBytes => exact guarded_answers ⟨_, rfl⟩
  | _ => exact absurd hi Bool.false_ne_true

/-- A controller operation reads a slice only after checking that it lies in memory (R220), so it answers
in every state. -/
theorem exec_dc_answers {i : Instr} (hi : isDc i = true) (s : State) : ∃ t, exec i s = .next t := by
  by_cases hn : i = .dcInit
  · subst hn
    exact guarded_answers ⟨initSequence s, rfl⟩
  · rcases refused_or_runs hi hn s with ⟨c, -, he⟩ | hr
    · exact ⟨_, he⟩
    · rcases runs_cases hr with ⟨-, -, he⟩ | ⟨-, -, _, -, -, he⟩ | ⟨-, -, -, he⟩ | ⟨_, _, -, -, he⟩
      all_goals exact ⟨_, he⟩

theorem exec_answers {s : State} (hs : Inv s) (i : Instr) : ∃ t, exec i s = .next t :=
  (isFb_or_isDc i).elim (exec_fb_answers · hs.fb hs.canonical) (exec_dc_answers · s)

theorem runDescriptor_answers {s : State} (hs : Inv s) : ∃ t, runDescriptor s = .next t := by
  rcases runDescriptor_cases s with ⟨i, -, he⟩ | ⟨_, -, he⟩
  · exact he ▸ exec_answers hs i
  · exact ⟨_, he⟩

/-- Settles O58, by cases on the host's move: a pending store has an address that exists, and GO runs an
operation that answers. -/
theorem noStepStops : Obligations.NoStepStops := by
  unfold Obligations.NoStepStops
  intro s hs
  cases hh : s.host with
  | nil => exact ⟨s, step_idle hh⟩
  | cons m rest =>
    cases m with
    | writeOpw i v => exact ⟨_, step_writeOpw hh⟩
    | store a v =>
      have ha : a < s.cfg.memBytes := hs.hostStores a v (hh ▸ List.mem_cons_self)
      exact ⟨_, (step_store hh).trans (if_pos ha)⟩
    | go => exact step_move hh ▸ runDescriptor_answers (inv_setHost hs hh)
    | reset => exact ⟨_, step_reset hh⟩

end Sys2Proof.Machine

/-! The decoder and the encoder: what each exit of `decode` says of the descriptor's words, and that the
decoder gives back what the assembler writes. -/

namespace Sys2Proof

/-! ### The two fields of OPW0 (R80) -/

theorem Descriptor.rsv_toNat (d : Descriptor) : d.rsv.toNat = d.w0.toNat / 256 := by
  have hlt := d.w0.isLt
  simp only [Descriptor.rsv, BitVec.extractLsb'_toNat, Nat.shiftRight_eq_div_pow]
  omega

theorem Descriptor.opc_toNat (d : Descriptor) : d.opc.toNat = d.w0.toNat % 256 := by
  simp [Descriptor.opc]

theorem Descriptor.rsv_eq_zero_iff (d : Descriptor) : d.rsv = 0 ↔ d.w0.toNat / 256 = 0 := by
  rw [← Descriptor.rsv_toNat]
  exact BitVec.toNat_inj.symm

/-- The reserved bits and the opcode are all of OPW0. -/
theorem Descriptor.w0_eq_iff (c d : Descriptor) : c.w0 = d.w0 ↔ c.rsv = d.rsv ∧ c.opc = d.opc := by
  simp only [← BitVec.toNat_inj, Descriptor.rsv_toNat, Descriptor.opc_toNat]
  omega

/-- OPW0 is the opcode word of an instruction exactly when its fields are 0 and the opcode. -/
theorem Descriptor.w0_eq_encode_iff (d : Descriptor) (i : Instr) :
    d.w0 = (encode i).w0 ↔ d.rsv = 0 ∧ d.opc = i.opcode := by
  rw [Descriptor.w0_eq_iff, Laws.EncodedWords.encode_rsv, Laws.EncodedWords.encode_opc]

/-! ### The opcode map (R85) -/

/-- The map answers only instructions of the opcode it is asked for. -/
theorem opcode_of_decodeOpcode {opc : Byte} {d : Descriptor} {i : Instr}
    (h : decodeOpcode opc d = some i) : opc = i.opcode := by
  unfold decodeOpcode at h
  split at h
  case h_14 => cases h
  all_goals
    cases h
    exact BitVec.eq_of_toNat_eq ‹_›

/-- At the opcode of an instruction the map answers that instruction exactly when its operands stand in
the first words. -/
theorem decodeOpcode_opcode_iff (d : Descriptor) (i : Instr) :
    decodeOpcode i.opcode d = some i ↔ d.operandWords.take i.operands.length = i.operands := by
  cases i <;> simp [decodeOpcode, Instr.opcode, Instr.operands, Descriptor.operandWords]

theorem decodeOpcode_eq_some_iff (opc : Byte) (d : Descriptor) (i : Instr) :
    decodeOpcode opc d = some i ↔
      opc = i.opcode ∧ d.operandWords.take i.operands.length = i.operands := by
  constructor
  · intro h
    obtain rfl := opcode_of_decodeOpcode h
    exact ⟨rfl, (decodeOpcode_opcode_iff d i).mp h⟩
  · rintro ⟨rfl, h⟩
    exact (decodeOpcode_opcode_iff d i).mpr h

/-- The map has no row exactly outside the two opcode ranges. -/
theorem decodeOpcode_eq_none_iff (opc : Byte) (d : Descriptor) :
    decodeOpcode opc d = none ↔
      ¬ (0x10 ≤ opc.toNat ∧ opc.toNat ≤ 0x15) ∧ ¬ (0x20 ≤ opc.toNat ∧ opc.toNat ≤ 0x26) := by
  unfold decodeOpcode
  split
  case h_14 =>
    simp only [imp_false, true_iff] at *
    omega
  all_goals simp [*]

/-! ### The exits of `decode` (R84) -/

theorem decode_of_rsv_ne_zero {d : Descriptor} (h : d.rsv ≠ 0) :
    decode d = .error .reservedBits := if_pos h

theorem decode_of_rsv_eq_zero {d : Descriptor} (h : d.rsv = 0) :
    decode d = (decodeOpcode d.opc d).elim (.error .unknownOpcode) .ok := by
  rw [decode, if_neg (not_not.mpr h)]
  cases decodeOpcode d.opc d <;> rfl

theorem decode_eq_reservedBits_iff (d : Descriptor) :
    decode d = .error .reservedBits ↔ d.rsv ≠ 0 := by
  refine ⟨fun hd h => ?_, decode_of_rsv_ne_zero⟩
  rw [decode_of_rsv_eq_zero h] at hd
  cases hm : decodeOpcode d.opc d <;> simp [hm] at hd

theorem decode_eq_unknownOpcode_iff (d : Descriptor) :
    decode d = .error .unknownOpcode ↔ d.rsv = 0 ∧ decodeOpcode d.opc d = none := by
  by_cases h : d.rsv = 0
  · rw [decode_of_rsv_eq_zero h, and_iff_right h]
    cases decodeOpcode d.opc d <;> simp
  · simp only [decode_of_rsv_ne_zero h, h, false_and, Except.error.injEq, reduceCtorEq]

theorem decode_eq_ok_iff (d : Descriptor) (i : Instr) :
    decode d = .ok i ↔ d.rsv = 0 ∧ decodeOpcode d.opc d = some i := by
  by_cases h : d.rsv = 0
  · rw [decode_of_rsv_eq_zero h, and_iff_right h]
    cases decodeOpcode d.opc d <;> simp
  · simp only [decode_of_rsv_ne_zero h, h, false_and, reduceCtorEq]

/-- The words that an instruction is decoded from. -/
theorem decode_eq_ok_iff_words (d : Descriptor) (i : Instr) :
    decode d = .ok i ↔
      d.w0 = (encode i).w0 ∧ d.operandWords.take i.operands.length = i.operands := by
  rw [decode_eq_ok_iff, decodeOpcode_eq_some_iff, Descriptor.w0_eq_encode_iff, and_assoc]

/-- The assembler writes the operands from OPW1 on (R88). -/
theorem encode_operandWords_take (i : Instr) :
    (encode i).operandWords.take i.operands.length = i.operands := by
  cases i <;> rfl

/-- Settles O1: the words the assembler writes are the words the instruction is decoded from. -/
theorem decodeOfEncode : Obligations.DecodeOfEncode := by
  unfold Obligations.DecodeOfEncode
  exact fun i => (decode_eq_ok_iff_words _ i).mpr ⟨rfl, encode_operandWords_take i⟩

/-- Settles O2, from the fields of OPW0 and the opcode map. -/
theorem decodeReadsExactlyItsWords : Obligations.DecodeReadsExactlyItsWords := by
  unfold Obligations.DecodeReadsExactlyItsWords
  exact decode_eq_ok_iff_words

/-- Settles O3: the exits are told apart by the reserved bits, and the opcode map has two ranges. -/
theorem decodeRejectsExactlyTheIllegal : Obligations.DecodeRejectsExactlyTheIllegal := by
  unfold Obligations.DecodeRejectsExactlyTheIllegal
  intro d
  rw [decode_eq_reservedBits_iff, decode_eq_unknownOpcode_iff, decodeOpcode_eq_none_iff, Ne,
    Descriptor.rsv_eq_zero_iff, Descriptor.opc_toNat]
  exact ⟨Iff.rfl, Iff.rfl⟩

/-- Settles O4: each descriptor is a closed term that the decoder evaluates. -/
theorem writtenWordsDecode : Obligations.WrittenWordsDecode := by
  unfold Obligations.WrittenWordsDecode
  decide

end Sys2Proof

/-! GO on a descriptor that does not decode. -/

namespace Sys2Proof.Machine

theorem step_go_error {s : State} {e : DecodeReject} {rest : List HostMove}
    (h : s.host = .go :: rest) (hd : decode s.opw = .error e) :
    step s = .next ((s.setHost rest).setResult .illegalOperation) :=
  (step_move h).trans (runDescriptor_error hd)

/-- Settles O6: GO decodes the operand registers before it looks at any other part of the state. -/
theorem undecodableDescriptorIsIllegal : Obligations.UndecodableDescriptorIsIllegal := by
  unfold Obligations.UndecodableDescriptorIsIllegal
  exact fun s rest e => step_go_error

end Sys2Proof.Machine

/-! The framebuffer operations: which bit `Locate` names, what each operation writes, that pixels read back
as they were written, and that the unit reads no part of the controller. -/

namespace Sys2Proof.Machine

/-! ### The pixel locator (R116, R117) -/

/-- The bit that `Locate` names is that of the point's internal coordinates. -/
theorem locate_rotated {fb : FbRegs} {r : Rotation} {x y a x' y' : Nat} {mask : Byte}
    (h : locate fb x y = some (a, mask)) (hr : fb.rot = r)
    (hrot : rotated r x y fb.width.toNat fb.height.toNat = (x', y')) :
    x' < fb.width.toNat ∧ y' < fb.height.toNat ∧
      a = fb.base.toNat + y' * (fb.width.toNat / 8) + x' / 8 ∧ mask = 0x80#8 >>> (x' % 8) := by
  obtain ⟨-, -, hx, hy, ha, hm⟩ := locate_eq_some.mp h
  rw [hr, hrot] at hx hy ha hm
  exact ⟨hx, hy, ha.trans (Nat.add_assoc _ _ _).symm, hm⟩

/-- The mask of an accepted point is that of some column of its byte. -/
theorem locate_mask {fb : FbRegs} {x y a : Nat} {mask : Byte} (h : locate fb x y = some (a, mask)) :
    ∃ k < 8, mask = pixelMask k := by
  obtain ⟨-, -, -, hm⟩ := locate_rotated h rfl rfl
  exact ⟨_, Nat.mod_lt _ (by decide), by rw [hm, pixelMask, Nat.mod_mod]⟩

/-- Settles O24: each row of the rotation table is the point that `Locate` computes with. -/
theorem locateStaysInTheBitmap : Obligations.LocateStaysInTheBitmap := by
  unfold Obligations.LocateStaysInTheBitmap
  intro p fb x y a mask hfb hv h
  obtain ⟨hx, hy, -⟩ := locate_eq_some.mp h
  have ha := locate_in_bitmap hfb hv h
  obtain ⟨k, hk, hm⟩ := locate_mask h
  exact ⟨hx, hy, ha, inBitmap_lt hfb hv ha,
    ⟨k, hk, by rw [hm, pixelMask, Nat.mod_eq_of_lt hk]⟩,
    (locate_rotated h · rfl), (locate_rotated h · rfl), (locate_rotated h · rfl),
    (locate_rotated h · rfl)⟩

/-- Two accepted points with one address and mask are one point: the bit determines the internal
coordinates, and they the point. -/
theorem locate_injective {p : Params} {fb : FbRegs} {x y x' y' a : Nat} {mask : Byte}
    (hfb : FbInv p fb) (hv : fb.valid = true) (h : locate fb x y = some (a, mask))
    (h' : locate fb x' y' = some (a, mask)) : x = x' ∧ y = y' := by
  obtain ⟨hx, hy, hrx, -, ha, hm⟩ := locate_eq_some.mp h
  obtain ⟨hx', hy', hrx', -, ha', hm'⟩ := locate_eq_some.mp h'
  obtain ⟨h1, h2⟩ := byteIndex_injective (hfb.widthMultiple hv) hrx hrx'
    (Nat.add_left_cancel (ha.symm.trans ha')) (pixelMask_injective (hm.symm.trans hm'))
  exact rotated_injective hx hy hx' hy' (Prod.ext h1 h2)

/-- Settles O23, by the injectivity of the byte index and of the rotation. -/
theorem locateIsInjective : Obligations.LocateIsInjective := by
  unfold Obligations.LocateIsInjective
  exact fun p fb x y x' y' a mask => locate_injective

/-- An in-range point is rejected exactly when its rotated image leaves the bitmap. -/
theorem locate_eq_none_of_inRange {fb : FbRegs} {x y : Nat} (hx : x < fb.width.toNat)
    (hy : y < fb.height.toNat) :
    locate fb x y = none ↔
      fb.width.toNat ≤ (rotated fb.rot x y fb.width.toNat fb.height.toNat).1 ∨
      fb.height.toNat ≤ (rotated fb.rot x y fb.width.toNat fb.height.toNat).2 := by
  rw [locate_eq_none, or_iff_right hx.not_ge, or_iff_right hy.not_ge]

/-- Half turns never leave the bitmap, and on a square one no rotation does (R119). -/
theorem rotated_inRange {r : Rotation} {x y W Ht : Nat} (hx : x < W) (hy : y < Ht)
    (h : r = .rotate0 ∨ r = .rotate180 ∨ W = Ht) :
    (rotated r x y W Ht).1 < W ∧ (rotated r x y W Ht).2 < Ht := by
  cases r <;> simp only [rotated, reduceCtorEq, false_or] at h ⊢ <;> omega

/-- Settles O25, by the row of the rotation table for each rotation. -/
theorem locateRejectsExactly : Obligations.LocateRejectsExactly := by
  unfold Obligations.LocateRejectsExactly
  intro fb x y hx hy
  rw [Ne, locate_eq_none_of_inRange hx hy]
  refine ⟨fun h => ?_, fun h => by rw [h]; rfl, fun h => by rw [h]; rfl⟩
  obtain ⟨h1, h2⟩ := rotated_inRange hx hy (h.imp_right (Or.imp_right (congrArg BitVec.toNat)))
  exact not_or.mpr ⟨h1.not_ge, h2.not_ge⟩

/-! ### Creating and rotating a framebuffer (R110, R111) -/

theorem sliceLegal_of_le {p : Params} {a n : Word} (h : a.toNat + n.toNat ≤ p.memBytes) :
    ¬ sliceLegal p a n = false := by
  rw [sliceLegal_eq_false]
  exact h.not_gt

/-- Settles O13: the three checks of R110 all pass. -/
theorem fbNewCreates : Obligations.FbNewCreates := by
  unfold Obligations.FbNewCreates
  intro s width height base len hw hs hl
  show execFbNew width height base len s = _
  rw [execFbNew, if_neg (not_not.mpr hw), if_neg (sliceLegal_of_le hs), if_neg (not_not.mpr hl)]
  rfl

/-- A width that is no multiple of 8 is the first refusal of `fb.new`. -/
theorem execFbNew_width {s : State} {width height base len : Word} (hw : width.toNat % 8 ≠ 0) :
    exec (.fbNew width height base len) s = .next (s.setResult .illegalOperation) := by
  show execFbNew width height base len s = _
  rw [execFbNew, if_pos hw]
  rfl

/-- Settles O14, refusal by refusal; an illegal slice has the answer of a wrong width, so the order of
these two checks is not seen. -/
theorem fbNewRefusesInOrder : Obligations.FbNewRefusesInOrder := by
  unfold Obligations.FbNewRefusesInOrder
  intro s width height base len
  refine ⟨execFbNew_width, fun hs => ?_, fun hw hs hl => ?_⟩
  · by_cases hw : width.toNat % 8 = 0
    · show execFbNew width height base len s = _
      rw [execFbNew, if_neg (not_not.mpr hw), if_pos (sliceLegal_eq_false.mpr hs)]
      rfl
    · exact execFbNew_width hw
  · show execFbNew width height base len s = _
    rw [execFbNew, if_neg (not_not.mpr hw), if_neg (sliceLegal_of_le hs), if_pos hl]
    rfl

/-- The state check of a framebuffer operation other than `fb.new` refuses (R118). -/
theorem fbGuarded_invalid {s : State} (hv : s.fb.valid = false)
    (k : Host.Outcome State Fault Refusal) :
    guarded (fbPrecheck s.fb) s k = .next (s.setResult .invalidState) := by
  rw [fbPrecheck_invalid hv]
  rfl

/-- The state check of a framebuffer operation other than `fb.new` passes (R118). -/
theorem fbGuarded_valid {s : State} (hv : s.fb.valid = true)
    (k : Host.Outcome State Fault Refusal) : guarded (fbPrecheck s.fb) s k = k := by
  rw [fbPrecheck_valid hv, guarded_none]

/-- Settles O15: the state check, then whether the operand encodes a rotation. -/
theorem fbRotSetsTheRotation : Obligations.FbRotSetsTheRotation := by
  unfold Obligations.FbRotSetsTheRotation
  intro s r
  refine ⟨fun hv => fbGuarded_invalid hv _, fun hv hr => ?_, fun hv hr => ?_⟩
  · obtain ⟨rot, hrot, hcode⟩ := rotationOfWord_lt (Nat.lt_succ_of_le hr)
    refine ⟨rot, hcode, (fbGuarded_valid hv _).trans ?_⟩
    rw [hrot]
    rfl
  · refine (fbGuarded_valid hv _).trans ?_
    rw [rotationOfWord_eq_none.mpr hr]
    rfl

/-! ### Returning the slice of the bitmap (R115) -/

/-- Settles O19: past the state check there is nothing to decide. -/
theorem fbBytesReturnsTheSlice : Obligations.FbBytesReturnsTheSlice := by
  unfold Obligations.FbBytesReturnsTheSlice
  exact fun s hv => fbGuarded_valid hv _

/-! ### Clearing the bitmap (R112, R122) -/

theorem execFbClear_badColor {s : State} {color : Word} (hv : s.fb.valid = true)
    (hc : 1 < color.toNat) :
    exec (.fbClear color) s = .next (s.setResult .illegalOperation) := by
  refine (fbGuarded_valid hv _).trans ?_
  rw [colorOfWord_eq_none.mpr hc]
  rfl

theorem colorByte_eq_ite (c : Color) : colorByte c = if colorCode c = 1 then 0xFF else 0x00 := by
  cases c <;> rfl

/-- Settles O16, from what `fb.clear` fills. -/
theorem fbClearFillsTheBitmap : Obligations.FbClearFillsTheBitmap := by
  unfold Obligations.FbClearFillsTheBitmap
  intro s color hfb hm
  refine ⟨fun hv => fbGuarded_invalid hv _, execFbClear_badColor, fun hv hc => ?_⟩
  obtain ⟨c, hcolor, hcode⟩ := colorOfWord_lt (Nat.lt_succ_of_le hc)
  obtain ⟨m, he, -, hin, hout⟩ := execFbClear_some hfb hm hv hcolor
  refine ⟨_, he, rfl, fun i hi => ?_, fun a ha => State.load_of_read rfl (hout a ha)⟩
  have ha : InBitmap s.fb (s.fb.base.toNat + i) :=
    ⟨Nat.le_add_right _ _, Nat.add_lt_add_left hi _⟩
  have hload := State.load_eq_some (s := (s.setMem m).setResult .ok) (inBitmap_lt hfb hv ha)
  exact hload.trans (by rw [State.setResult_mem, State.setMem_mem, hin _ ha, colorByte_eq_ite, hcode])

/-- Settles O26: both ways leave canonical memories that read alike, in the bitmap as black and outside
it as before. -/
theorem clearOverwritesClear : Obligations.ClearOverwritesClear := by
  unfold Obligations.ClearOverwritesClear
  intro s hfb hm hv
  obtain ⟨m₁, he₁, hw₁, -, hout₁⟩ := execFbClear_some (color := 1) hfb hm hv rfl
  obtain ⟨m₂, he₂, hw₂, hin₂, hout₂⟩ :=
    execFbClear_some (s := (s.setMem m₁).setResult .ok) (color := 0) hfb hw₁ hv rfl
  obtain ⟨m, he, hw, hin, hout⟩ := execFbClear_some (color := 0) hfb hm hv rfl
  have hmem : m = m₂ := Memory.eq_of_read hw hw₂ fun a => by
    by_cases ha : InBitmap s.fb a
    · rw [hin a ha, hin₂ a ha]
    · rw [hout a ha, hout₂ a ha]
      exact (hout₁ a ha).symm
  exact ⟨_, _, he₁, he₂, hmem ▸ he⟩

/-! ### Writing and reading a pixel (R113, R114) -/

/-- What `fb.get` answers for a point (R114). -/
def pixelAt (fb : FbRegs) (m : Memory) (x y : Nat) : Word :=
  match locate fb x y with
  | none => noPixel
  | some (a, mask) => pixelValue (Memory.read m a) mask

theorem pixelAt_none {fb : FbRegs} {x y : Nat} (hl : locate fb x y = none) (m : Memory) :
    pixelAt fb m x y = noPixel := by rw [pixelAt, hl]

theorem pixelAt_some {fb : FbRegs} {x y a : Nat} {mask : Byte}
    (hl : locate fb x y = some (a, mask)) (m : Memory) :
    pixelAt fb m x y = pixelValue (Memory.read m a) mask := by rw [pixelAt, hl]

/-- The memory after `fb.pix` (R113). -/
def paintPixel (fb : FbRegs) (c : Color) (x y : Nat) (m : Memory) : Memory :=
  match locate fb x y with
  | none => m
  | some (a, mask) => Memory.write m a (paint c (Memory.read m a) mask)

theorem paintPixel_none {fb : FbRegs} {x y : Nat} (hl : locate fb x y = none) (c : Color)
    (m : Memory) : paintPixel fb c x y m = m := by rw [paintPixel, hl]

theorem paintPixel_some {fb : FbRegs} {x y a : Nat} {mask : Byte}
    (hl : locate fb x y = some (a, mask)) (c : Color) (m : Memory) :
    paintPixel fb c x y m = Memory.write m a (paint c (Memory.read m a) mask) := by
  rw [paintPixel, hl]

/-- An accepted point's byte exists (R63). -/
theorem locate_lt {p : Params} {fb : FbRegs} {x y a : Nat} {mask : Byte} (hfb : FbInv p fb)
    (hv : fb.valid = true) (hl : locate fb x y = some (a, mask)) : a < p.memBytes :=
  inBitmap_lt hfb hv (locate_in_bitmap hfb hv hl)

theorem execFbGet_eq {s : State} (hfb : FbInv s.cfg s.fb) (hv : s.fb.valid = true) (x y : Word) :
    exec (.fbGet x y) s =
      .next ((s.setRet0 (pixelAt s.fb s.mem x.toNat y.toNat)).setResult .ok) := by
  cases hl : locate s.fb x.toNat y.toNat with
  | none => rw [pixelAt_none hl, execFbGet_none hv hl]
  | some p => rw [pixelAt_some hl, execFbGet_some hv hl (locate_lt hfb hv hl)]

theorem execFbPix_eq {s : State} {color : Word} {c : Color} (hfb : FbInv s.cfg s.fb)
    (hv : s.fb.valid = true) (hc : colorOfWord color = some c) (x y : Word) :
    exec (.fbPix x y color) s =
      .next ((s.setMem (paintPixel s.fb c x.toNat y.toNat s.mem)).setResult .ok) := by
  cases hl : locate s.fb x.toNat y.toNat with
  | none => rw [paintPixel_none hl, execFbPix_none hv hc hl]; rfl
  | some p => rw [paintPixel_some hl, execFbPix_some hv hc hl (locate_lt hfb hv hl)]

theorem execFbPix_badColor {s : State} {x y color : Word} (hv : s.fb.valid = true)
    (hc : 1 < color.toNat) :
    exec (.fbPix x y color) s = .next (s.setResult .illegalOperation) := by
  refine (fbGuarded_valid hv _).trans ?_
  rw [colorOfWord_eq_none.mpr hc]
  rfl

theorem paint_eq_ite (c : Color) (b mask : Byte) :
    paint c b mask = if colorCode c = 1 then b ||| mask else b &&& ~~~mask := by cases c <;> rfl

/-- Settles O17: the checks in their order, and read after write at the located address. -/
theorem fbPixWritesOneBit : Obligations.FbPixWritesOneBit := by
  unfold Obligations.FbPixWritesOneBit
  intro s x y color hfb hm
  refine ⟨fun hv => fbGuarded_invalid hv _, execFbPix_badColor, fun hv hc hl => ?_,
    fun hv hc a mask hl => ?_⟩
  · obtain ⟨c, hcolor, -⟩ := colorOfWord_lt (Nat.lt_succ_of_le hc)
    exact execFbPix_none hv hcolor hl
  · obtain ⟨c, hcolor, hcode⟩ := colorOfWord_lt (Nat.lt_succ_of_le hc)
    have ha := locate_lt hfb hv hl
    have hload := State.load_write hm ha (paint c (Memory.read s.mem a) mask)
    refine ⟨_, _, State.load_eq_some ha, execFbPix_some hv hcolor hl ha, rfl, ?_, fun a' ha' =>
      (hload a').trans (if_neg ha')⟩
    rw [← hcode, ← paint_eq_ite]
    exact (hload a).trans (if_pos rfl)

/-- Settles O18, by whether `Locate` accepts the point. -/
theorem fbGetReadsOneBit : Obligations.FbGetReadsOneBit := by
  unfold Obligations.FbGetReadsOneBit
  intro s x y hfb hv
  refine ⟨execFbGet_none hv, fun a mask hl => ?_⟩
  have ha := locate_lt hfb hv hl
  refine ⟨_, State.load_eq_some ha, ?_⟩
  rw [execFbGet_some hv hl ha, pixelValue, ite_not]
  rfl

/-- The pixel painted reads as the colour painted (R120). -/
theorem pixelAt_paintPixel_same {fb : FbRegs} {x y : Nat} {m : Memory} (hm : Memory.wf m = true)
    (hl : locate fb x y ≠ none) (c : Color) :
    pixelAt fb (paintPixel fb c x y m) x y = BitVec.ofNat 32 (colorCode c) := by
  obtain ⟨⟨a, mask⟩, hl⟩ := Option.ne_none_iff_exists'.mp hl
  obtain ⟨k, -, rfl⟩ := locate_mask hl
  rw [pixelAt_some hl, paintPixel_some hl, Memory.read_write hm, if_pos rfl, pixelValue_paint]

/-- Every other pixel reads as before (R124): it lies in another byte, or at another bit of the byte. -/
theorem pixelAt_paintPixel_other {p : Params} {fb : FbRegs} {x y x' y' : Nat} {m : Memory}
    (hfb : FbInv p fb) (hv : fb.valid = true) (hm : Memory.wf m = true) (hne : (x, y) ≠ (x', y'))
    (c : Color) : pixelAt fb (paintPixel fb c x y m) x' y' = pixelAt fb m x' y' := by
  cases hl : locate fb x y with
  | none => rw [paintPixel_none hl]
  | some q =>
    cases hl' : locate fb x' y' with
    | none => rw [pixelAt_none hl', pixelAt_none hl']
    | some q' =>
      obtain ⟨a, mask⟩ := q
      obtain ⟨a', mask'⟩ := q'
      rw [paintPixel_some hl, pixelAt_some hl', pixelAt_some hl', Memory.read_write hm]
      by_cases ha : a' = a
      · subst ha
        have hmask : mask ≠ mask' := by
          rintro rfl
          exact hne (Prod.ext_iff.mpr (locate_injective hfb hv hl hl'))
        obtain ⟨k, -, rfl⟩ := locate_mask hl
        obtain ⟨k', -, rfl⟩ := locate_mask hl'
        rw [if_pos rfl]
        exact pixelValue_paint_other c _ fun hk => hmask (congrArg (0x80#8 >>> ·) hk)
      · rw [if_neg ha]

/-- Settles O21: `fb.get` answers the pixel that `fb.pix` painted. -/
theorem pixelReadsBack : Obligations.PixelReadsBack := by
  unfold Obligations.PixelReadsBack
  intro s x y color hfb hm hv hc hl
  obtain ⟨c, hcolor, hcode⟩ := colorOfWord_lt (Nat.lt_succ_of_le hc)
  refine ⟨_, _, execFbPix_eq hfb hv hcolor x y, execFbGet_eq (by exact hfb) (by exact hv) x y, ?_, rfl⟩
  refine (pixelAt_paintPixel_same hm hl c).trans ?_
  rw [hcode, BitVec.ofNat_toNat, BitVec.setWidth_eq]

/-- Settles O22: `fb.get` answers a pixel that `fb.pix` did not paint. -/
theorem pixelWriteLeavesOtherPixels : Obligations.PixelWriteLeavesOtherPixels := by
  unfold Obligations.PixelWriteLeavesOtherPixels
  intro s x y color x' y' hfb hm hv hc hne
  obtain ⟨c, hcolor, -⟩ := colorOfWord_lt (Nat.lt_succ_of_le hc)
  refine ⟨_, _, _, execFbPix_eq hfb hv hcolor x y, execFbGet_eq hfb hv x' y',
    execFbGet_eq (by exact hfb) (by exact hv) x' y', pixelAt_paintPixel_other hfb hv hm ?_ c⟩
  simpa [BitVec.toNat_inj] using hne

/-! ### The bitmap's length (R123) -/

/-- `W / 8 * Ht` bytes hold `W * Ht` pixels with none left over. -/
theorem ceilDiv_area {W : Nat} (hW : W % 8 = 0) (Ht : Nat) : ceilDiv (W * Ht) 8 = W / 8 * Ht := by
  obtain ⟨k, rfl⟩ := Nat.dvd_of_mod_eq_zero hW
  have hassoc : 8 * k * Ht = 8 * (k * Ht) := Nat.mul_assoc 8 k Ht
  rw [ceilDiv, Nat.mul_div_cancel_left k (by decide)]
  omega

/-- The length of a valid framebuffer is that of its geometry. -/
theorem fbInv_len {p : Params} {fb : FbRegs} (h : FbInv p fb) (hv : fb.valid = true) :
    fb.len.toNat = ceilDiv (fb.width.toNat * fb.height.toNat) 8 := by
  rw [ceilDiv_area (h.widthMultiple hv), h.lenIsArea hv]

/-- Every operation but `fb.new` leaves all framebuffer registers but the rotation alone. -/
theorem exec_regs {i : Instr} {s t : State} (h : exec i s = .next t)
    (hnew : ∀ w ht b l, i ≠ .fbNew w ht b l) : t.fb = { s.fb with rot := t.fb.rot } := by
  rcases isFb_or_isDc i with hi | hi
  · exact (exec_fb_regs hi h hnew).1
  · obtain ⟨hframe, -⟩ := dcFrame_of_exec hi h
    rw [hframe.fb]

/-- What `fb.new` leaves in the framebuffer registers: what it was given, if that meets R27. -/
theorem execFbNew_regs {s t : State} {width height base len : Word}
    (h : exec (.fbNew width height base len) s = .next t) :
    t.fb = s.fb ∨ (t.fb = ⟨true, width, height, .rotate0, base, len⟩ ∧ FbInv s.cfg t.fb) := by
  rcases fb_cases rfl h with ⟨-, ht⟩ | ⟨_, _, _, _, hi, hw, hs, hl, rfl⟩ | ⟨_, _, hi, -⟩ |
    ⟨_, _, _, hi, -⟩ | ⟨_, _, _, _, hi, -⟩ | ⟨_, _, _, hi, -⟩ | ⟨hi, -⟩
  case inl => exact .inl (by rw [ht]; rfl)
  case inr.inl =>
    cases hi
    exact .inr ⟨rfl, fun _ => hw, fun _ => hl, fun _ => hs⟩
  all_goals exact nomatch hi

/-- Every operation keeps a valid framebuffer valid, and its invariant. -/
theorem exec_keeps_validFb {i : Instr} {s t : State} (hfb : FbInv s.cfg s.fb)
    (hv : s.fb.valid = true) (h : exec i s = .next t) : FbInv s.cfg t.fb ∧ t.fb.valid = true := by
  by_cases hnew : ∀ w ht b l, i ≠ .fbNew w ht b l
  · rw [exec_regs h hnew]
    exact ⟨fbInv_rot hfb _, hv⟩
  · push Not at hnew
    obtain ⟨w, ht, b, l, rfl⟩ := hnew
    rcases execFbNew_regs h with he | ⟨he, hi⟩
    · rw [he]
      exact ⟨hfb, hv⟩
    · exact ⟨hi, by rw [he]⟩

/-- Settles O27: every operation keeps the framebuffer invariant, which fixes the length. -/
theorem lengthFollowsTheGeometry : Obligations.LengthFollowsTheGeometry := by
  unfold Obligations.LengthFollowsTheGeometry
  intro i s t hfb hv h
  obtain ⟨hfb', hv'⟩ := exec_keeps_validFb hfb hv h
  exact ⟨hv', fbInv_len hfb' hv', fun hnew => by rw [exec_regs h hnew]⟩

/-! ### Independence of the controller (R118) -/

/-- A state with other controller registers, latches and environment answers. -/
def State.withController (s : State) (d : DcRegs) (l : Lines) (v : Env) : State :=
  ((s.setDcu d).setLines l).setEnv v

section
variable (s : State) (d : DcRegs) (l : Lines) (v : Env)

@[simp] theorem State.withController_fb : (s.withController d l v).fb = s.fb := rfl

@[simp] theorem State.withController_load (a : Nat) :
    (s.withController d l v).load a = s.load a := rfl

theorem store_withController (a : Nat) (b : Byte) :
    (s.withController d l v).store a b = (s.store a b).map (·.withController d l v) :=
  (apply_ite (Option.map (State.withController · d l v)) (a < s.cfg.memBytes)
    (some (s.setMem (Memory.write s.mem a b))) none).symm

theorem fill_withController (b : Byte) (a n : Nat) :
    State.fill b a n (s.withController d l v) =
      (State.fill b a n s).map (·.withController d l v) := by
  induction n generalizing a s with
  | zero => rfl
  | succ n ih =>
    rw [State.fill, State.fill, store_withController]
    cases s.store a b with
    | none => rfl
    | some u => exact ih u (a + 1)

/-- The state check of a framebuffer operation reads the framebuffer registers alone. -/
theorem fbGuarded_withController {k k' : Host.Outcome State Fault Refusal}
    (h : k' = mapNext (·.withController d l v) k) :
    guarded (fbPrecheck s.fb) (s.withController d l v) k' =
      mapNext (·.withController d l v) (guarded (fbPrecheck s.fb) s k) := by
  rcases fbPrecheck_cases s k with ⟨hv, he⟩ | ⟨hv, he⟩
  · rw [he]
    exact fbGuarded_invalid (s := s.withController d l v) hv k'
  · rw [he]
    exact (fbGuarded_valid (s := s.withController d l v) hv k').trans h

end

/-- An access under a change of what it answers. -/
theorem onAccess_map {α β : Type} (f : α → β) (r : Option α)
    (k : β → Host.Outcome State Fault Refusal) :
    onAccess (r.map f) k = onAccess r fun x => k (f x) := by cases r <;> rfl

/-- Settles O49, operation by operation: each is checks of operands and framebuffer registers, accesses
to memory and writes of other registers, and all of these commute with a change of the controller. -/
theorem framebufferIgnoresController : Obligations.FramebufferIgnoresController := by
  unfold Obligations.FramebufferIgnoresController
  intro i s d l v hi
  show exec i (s.withController d l v) = mapNext (·.withController d l v) (exec i s)
  cases i with
  | fbNew width height base len =>
    refine congrArg Host.Outcome.next ?_
    simp only [apply_ite (State.withController · d l v)]
    rfl
  | fbRot r =>
    refine fbGuarded_withController s d l v (congrArg Host.Outcome.next ?_)
    cases rotationOfWord r <;> rfl
  | fbClear color =>
    refine fbGuarded_withController s d l v ?_
    cases colorOfWord color with
    | none => rfl
    | some c =>
      show onAccess (State.fill _ s.fb.base.toNat s.fb.len.toNat (s.withController d l v)) _ = _
      rw [fill_withController, onAccess_map, mapNext_onAccess]
      rfl
  | fbPix x y color =>
    refine fbGuarded_withController s d l v ?_
    cases colorOfWord color with
    | none => rfl
    | some c =>
      rw [State.withController_fb]
      cases locate s.fb x.toNat y.toNat with
      | none => rfl
      | some q =>
        simp only [State.withController_load, store_withController, onAccess_map, mapNext_onAccess]
        rfl
  | fbGet x y =>
    refine fbGuarded_withController s d l v ?_
    rw [State.withController_fb]
    cases locate s.fb x.toNat y.toNat with
    | none => rfl
    | some q =>
      simp only [State.withController_load, mapNext_onAccess]
      rfl
  | fbBytes => exact fbGuarded_withController s d l v rfl
  | _ => exact absurd hi Bool.false_ne_true

end Sys2Proof.Machine

/-! Which operations sample the busy input: the environment's answers that an operation uses up. -/

namespace Sys2Proof.Machine

/-! ### Answers of the busy input (R147) -/

/-- Bus writes alone use up no answer of the busy input. -/
theorem envAfter_busWrites (v : Env) (n : Nat) :
    (envAfter v n 0).busyAnswers = v.busyAnswers ∧ (envAfter v n 0).busyDraws = v.busyDraws :=
  ⟨rfl, rfl⟩

/-- A controller operation that does not wait uses up answers of the bus alone: none when it is refused,
else one for each byte list it framed, the failing one included. -/
theorem exec_dc_env {i : Instr} {s t : State} (hi : isDc i = true) (hinit : i ≠ .dcInit)
    (hdisplay : i ≠ .dcDisplay) (h : exec i s = .next t) : ∃ n, t.env = envAfter s.env n 0 := by
  rcases dc_cases hi h with ⟨_, -, rfl⟩ |
    ⟨-, -, ⟨-, -, rfl⟩ | ⟨-, hd, -⟩ | ⟨-, hd, -⟩ | ⟨k, _, -, -, rfl⟩⟩ | ⟨hn, -⟩
  · exact ⟨0, (envAfter_zero s.env).symm⟩
  · exact ⟨(opFrames s i).length, rfl⟩
  · exact absurd hd hdisplay
  · exact absurd hd hdisplay
  · exact ⟨k + 1, rfl⟩
  · exact absurd hn hinit

/-- Settles O50: a framebuffer operation uses up no answer at all, and a controller operation other than
the two that wait uses up answers of the bus alone. -/
theorem onlyInitAndDisplayWait : Obligations.OnlyInitAndDisplayWait := by
  unfold Obligations.OnlyInitAndDisplayWait
  intro i s t hinit hdisplay h
  rcases isFb_or_isDc i with hi | hi
  · rw [(fbFrame_of_exec hi h).env]
    exact ⟨rfl, rfl⟩
  · obtain ⟨n, hn⟩ := exec_dc_env hi hinit hdisplay h
    rw [hn]
    exact envAfter_busWrites s.env n

end Sys2Proof.Machine

/-! The controller operations: how each completes when the bus
answers and the panel becomes ready, and the checks that come before any event. -/

namespace Sys2Proof.Machine

/-! ### Operations that complete (R170 to R176) -/

/-- A failing write among the next `n` contradicts their success. -/
theorem busFailsAt_absurd {v : Env} {fs : List Frame} {k : Nat} {f : Frame}
    (hok : BusOk v fs.length) (hf : BusFailsAt v k) (hk : fs[k]? = some f) : False :=
  busFailsAt_not_ok hok (List.getElem?_eq_some_iff.mp hk).1 hf

/-- A running operation that does not wait, all its bus writes answered. -/
theorem exec_completes {i : Instr} {s : State} (hr : Runs s i) (hd : i ≠ .dcDisplay)
    (hok : BusOk s.env (opFrames s i).length) :
    exec i s = .next (((sent s (opFrames s i)).setResult .ok).setDcu (okRegs s.dcu i)) := by
  rcases runs_cases hr with ⟨-, -, he⟩ | ⟨-, hi, -⟩ | ⟨-, hi, -⟩ | ⟨_, _, hf, hk, -⟩
  · exact he
  · exact absurd hi hd
  · exact absurd hi hd
  · exact (busFailsAt_absurd hok hf hk).elim

/-- Settles O29: the selector that the operand encodes names the table sent. -/
theorem dcLutCompletes : Obligations.DcLutCompletes := by
  unfold Obligations.DcLutCompletes
  intro s sel hr hok
  exact ⟨(okRegs s.dcu (.dcLut sel)).activeLut, okRegs_activeLut_code hr.2 _,
    exec_completes hr nofun hok⟩

/-- Settles O30: the two fills are the operation's transfers. -/
theorem dcClrfCompletes : Obligations.DcClrfCompletes := by
  unfold Obligations.DcClrfCompletes
  exact fun s hr => exec_completes hr nofun

/-- Settles O31: the slice is the data of the operation's one transfer. -/
theorem dcUpdateCompletes : Obligations.DcUpdateCompletes := by
  unfold Obligations.DcUpdateCompletes
  exact fun s addr len hr => exec_completes hr nofun

/-- Settles O32: the window's bytes are the data of the operation's last transfer. -/
theorem dcPartialCompletes : Obligations.DcPartialCompletes := by
  unfold Obligations.DcPartialCompletes
  exact fun s addr len x y w h hr => exec_completes hr nofun

/-- Settles O34: no busy-wait follows the sleep sequence. -/
theorem dcSleepCompletes : Obligations.DcSleepCompletes := by
  unfold Obligations.DcSleepCompletes
  exact fun s hr => exec_completes hr nofun

/-- Settles O33: the sample at which the panel is ready is unique, and rules a timeout out. -/
theorem dcDisplayCompletes : Obligations.DcDisplayCompletes := by
  unfold Obligations.DcDisplayCompletes
  intro s k hr hok hk hready
  rcases runs_cases hr with ⟨-, hd, -⟩ | ⟨-, -, j, -, hj, he⟩ | ⟨-, -, hn, -⟩ | ⟨_, _, hf, hg, -⟩
  · exact absurd rfl hd
  · obtain rfl := readyAt_unique hj hready
    exact he
  · exact absurd hn (readyAt_not_never hready hk)
  · exact (busFailsAt_absurd hok hf hg).elim

/-- Settles O28: with no failing write and a ready sample only the first way of `dc.init` to end is
left. -/
theorem dcInitCompletes : Obligations.DcInitCompletes := by
  unfold Obligations.DcInitCompletes
  intro s k hs hok hk hready
  rcases init_cases hs with ⟨-, j, -, hj, he⟩ | ⟨-, hn, -⟩ | ⟨n, f, hf, hg, -⟩ | ⟨n, f, hf, hg, -⟩
  · obtain rfl := readyAt_unique hj hready
    exact he
  · exact absurd hn (readyAt_not_never hready hk)
  · have hlt : n < (initFrames s).length := (List.getElem?_eq_some_iff.mp hg).1
    exact absurd hf (busFailsAt_not_ok hok (Nat.lt_add_right _ hlt))
  · have hlt : n < (tableFrames s).length := (List.getElem?_eq_some_iff.mp hg).1
    exact absurd hf (busFailsAt_not_ok hok (Nat.add_lt_add_left hlt _))

/-! ### The checks of an idle controller (R220 steps 3 to 5) -/

/-- The state check passes an idle controller's operation other than `dc.display` (R177). -/
theorem dcGuarded_idle {op : DcOp} {s : State} (hs : s.dcu.state = .idle) (hop : op ≠ .display)
    (k : Host.Outcome State Fault Refusal) : guarded (dcPrecheck op s.dcu) s k = k := by
  rw [dcPrecheck_idle hs hop, guarded_none]

/-- The slice and size checks that `dc.update` and `dc.partial` share (R173, R174). -/
def sliceChecked (addr len : Word) (s : State) (k : Host.Outcome State Fault Refusal) :
    Host.Outcome State Fault Refusal :=
  if sliceLegal s.cfg addr len = false then .next (raise .illegalOperation s)
  else if len.toNat ≠ frameBytes s.cfg then .next (raise .sizeMismatch s)
  else k

theorem execDcUpdate_idle {s : State} (hs : s.dcu.state = .idle) (addr len : Word) :
    ∃ k, exec (.dcUpdate addr len) s = sliceChecked addr len s k :=
  ⟨_, dcGuarded_idle (op := .update) hs nofun _⟩

theorem execDcPartial_idle {s : State} (hs : s.dcu.state = .idle) (addr len x y w h : Word) :
    ∃ k, exec (.dcPartial addr len x y w h) s = sliceChecked addr len s
      (if windowValid s.cfg ⟨x.toNat, y.toNat, w.toNat, h.toNat⟩ = false then
        .next (raise .invalidWindow s) else k) :=
  ⟨_, dcGuarded_idle (op := .partialUpdate) hs nofun _⟩

section
variable {s : State} {addr len : Word} {k : Host.Outcome State Fault Refusal}

theorem sliceChecked_illegal (hl : s.cfg.memBytes < addr.toNat + len.toNat) :
    sliceChecked addr len s k = .next (s.setResult .illegalOperation) :=
  if_pos (sliceLegal_eq_false.mpr hl)

theorem sliceChecked_mismatch (hl : addr.toNat + len.toNat ≤ s.cfg.memBytes)
    (hn : len.toNat ≠ frameBytes s.cfg) :
    sliceChecked addr len s k = .next (s.setResult .sizeMismatch) :=
  (if_neg (sliceLegal_of_le hl)).trans (if_pos hn)

theorem sliceChecked_legal (hl : addr.toNat + len.toNat ≤ s.cfg.memBytes)
    (hn : len.toNat = frameBytes s.cfg) : sliceChecked addr len s k = k :=
  (if_neg (sliceLegal_of_le hl)).trans (if_neg (not_not.mpr hn))

end

theorem execDcLut_illegal {s : State} {sel : Word} (hs : s.dcu.state = .idle)
    (hsel : 2 < sel.toNat) : exec (.dcLut sel) s = .next (s.setResult .illegalOperation) := by
  refine (dcGuarded_idle (op := .lut) hs nofun _).trans ?_
  rw [lutSelOfWord_eq_none.mpr hsel]
  rfl

/-- A window that R178 calls invalid, by its numbers. -/
theorem windowValid_eq_false_iff {p : Params} {x y w h : Nat} :
    windowValid p ⟨x, y, w, h⟩ = false ↔
      w = 0 ∨ h = 0 ∨ p.devWidth < x + w ∨ p.devHeight < y + h ∨ w % p.granX ≠ 0 ∨
        h % p.granY ≠ 0 := by
  rw [← Bool.not_eq_true, windowValid_iff_fits]
  omega

/-- An operation past its checks answers no caller error. -/
theorem runs_result {i : Instr} {s t : State} (hr : Runs s i) (h : exec i s = .next t) :
    isCallerError t.result = false := by
  rcases runs_cases hr with ⟨-, -, he⟩ | ⟨-, -, _, -, -, he⟩ | ⟨-, -, -, he⟩ | ⟨_, _, -, -, he⟩
  all_goals
    obtain rfl := Host.Outcome.next.inj (h.symm.trans he)
    rfl

/-- On a legal slice of the right length `dc.partial` answers `InvalidWindow` to exactly the windows its
check refuses: on any other window it runs. -/
theorem execDcPartial_invalidWindow_iff {s : State} {addr len x y w h : Word}
    (hs : s.dcu.state = .idle) (hl : addr.toNat + len.toNat ≤ s.cfg.memBytes)
    (hn : len.toNat = frameBytes s.cfg) :
    exec (.dcPartial addr len x y w h) s = .next (s.setResult .invalidWindow) ↔
      windowValid s.cfg ⟨x.toNat, y.toNat, w.toNat, h.toNat⟩ = false := by
  constructor
  · intro he
    by_contra hw
    have hfits := windowValid_iff_fits.mp (Bool.eq_true_of_not_eq_false hw)
    exact nomatch runs_result (i := .dcPartial addr len x y w h) ⟨hs, hl, hn, hfits⟩ he
  · intro hw
    obtain ⟨k, he⟩ := execDcPartial_idle hs addr len x y w h
    rw [he, sliceChecked_legal hl hn, if_pos hw]
    rfl

/-- Settles O41, check by check. -/
theorem operandChecksInOrder : Obligations.OperandChecksInOrder := by
  unfold Obligations.OperandChecksInOrder
  intro s sel addr len x y w h hs
  obtain ⟨_, hu⟩ := execDcUpdate_idle hs addr len
  obtain ⟨_, hp⟩ := execDcPartial_idle hs addr len x y w h
  exact ⟨execDcLut_illegal hs,
    fun hl => ⟨hu.trans (sliceChecked_illegal hl), hp.trans (sliceChecked_illegal hl)⟩,
    fun hl hn => ⟨hu.trans (sliceChecked_mismatch hl hn), hp.trans (sliceChecked_mismatch hl hn)⟩,
    fun hl hn => (execDcPartial_invalidWindow_iff hs hl hn).trans windowValid_eq_false_iff⟩

end Sys2Proof.Machine

/-! The transitions of `dc_state`: what leaves `Faulted` and `Sleeping`, and that a faulted controller is
silent. -/

namespace Sys2Proof.Machine

/-! ### The transitions of `dc_state` (R180) -/

/-- How a controller operation can leave `dc_state`. -/
theorem exec_dc_state {i : Instr} {s t : State} (hi : isDc i = true) (h : exec i s = .next t) :
    t.dcu.state = s.dcu.state ∨
    (i = .dcInit ∧ s.dcu.state ≠ .faulted ∧ t.dcu.state = .idle ∧ t.result = .ok) ∨
    (i = .dcSleep ∧ s.dcu.state = .idle ∧ t.dcu.state = .sleeping ∧ t.result = .ok) ∨
    ((s.dcu.state = .idle ∨ (i = .dcInit ∧ s.dcu.state ≠ .faulted)) ∧
      t.dcu.state = .faulted ∧ isDeviceFailure t.result = true) := by
  rcases dc_cases hi h with ⟨_, -, rfl⟩ | ⟨-, hr, hend⟩ | ⟨hinit, hs, hend⟩
  · exact .inl rfl
  · rcases hend with ⟨-, -, rfl⟩ | ⟨-, -, _, -, -, rfl⟩ | ⟨-, -, -, rfl⟩ | ⟨_, _, -, -, rfl⟩
    · by_cases hsleep : i = .dcSleep
      · exact .inr (.inr (.inl ⟨hsleep, hr.idle, by rw [hsleep]; rfl, rfl⟩))
      · exact .inl (okRegs_state hsleep)
    · exact .inl rfl
    · exact .inr (.inr (.inr ⟨.inl hr.idle, rfl, rfl⟩))
    · exact .inr (.inr (.inr ⟨.inl hr.idle, rfl, rfl⟩))
  · rcases hend with ⟨-, _, -, -, rfl⟩ | ⟨-, -, rfl⟩ | ⟨_, _, -, -, rfl⟩ | ⟨_, _, -, -, _, -, -, rfl⟩
    · exact .inr (.inl ⟨hinit, hs, rfl, rfl⟩)
    all_goals exact .inr (.inr (.inr ⟨.inr ⟨hinit, hs⟩, rfl, rfl⟩))

/-- Settles O44: a framebuffer operation writes no controller register, and the ends of a controller
operation are the transitions of R180. -/
theorem controllerStateTransitions : Obligations.ControllerStateTransitions := by
  unfold Obligations.ControllerStateTransitions
  intro i s t h
  rcases isFb_or_isDc i with hi | hi
  · exact .inl (congrArg DcRegs.state (fbFrame_of_exec hi h).dcu)
  · exact (exec_dc_state hi h).imp_right (Or.imp_right (Or.imp_right fun hf => ⟨hi, hf⟩))

/-- No operation leaves `Faulted` (R219). -/
theorem exec_keeps_faulted {i : Instr} {s t : State} (hs : s.dcu.state = .faulted)
    (h : exec i s = .next t) : t.dcu.state = .faulted := by
  rcases controllerStateTransitions i s t h with he | ⟨-, hne, -⟩ | ⟨-, hidle, -⟩ | ⟨-, -, hf, -⟩
  · exact he.trans hs
  · exact absurd hs hne
  · exact nomatch hs.symm.trans hidle
  · exact hf

/-- Only `dc.init` leaves `Sleeping`. -/
theorem exec_keeps_sleeping {i : Instr} {s t : State} (hn : i ≠ .dcInit)
    (hs : s.dcu.state = .sleeping) (h : exec i s = .next t) : t.dcu.state = .sleeping := by
  rcases controllerStateTransitions i s t h with he | ⟨hi, -⟩ | ⟨-, -, hsleep, -⟩ |
    ⟨-, hidle | ⟨hi, -⟩, -⟩
  · exact he.trans hs
  · exact absurd hi hn
  · exact hsleep
  · exact nomatch hs.symm.trans hidle
  · exact absurd hi hn

/-- A step that changes a controller register is a block reset, or a GO on an operation that changes
it. -/
theorem step_dcu {s t : State} (h : step s = .next t) :
    t.dcu = s.dcu ∨ (∃ rest, s.host = .reset :: rest) ∨
    ∃ rest i, s.host = .go :: rest ∧ decode s.opw = .ok i ∧ exec i (s.setHost rest) = .next t := by
  rcases step_cases h with ⟨-, rfl⟩ | ⟨rest, ⟨_, _, -, rfl⟩ | ⟨_, _, -, -, rfl⟩ | ⟨i, hh, hd, he⟩ |
    ⟨_, -, -, rfl⟩ | ⟨hh, -⟩⟩
  case inr.inr.inr.inl => exact .inr (.inr ⟨rest, i, hh, hd, he⟩)
  case inr.inr.inr.inr.inr => exact .inr (.inl ⟨rest, hh⟩)
  all_goals exact .inl rfl

/-- Settles O54: of the host's moves only GO and block reset write `dc_state`. -/
theorem whatLeavesFaultedAndSleeping : Obligations.WhatLeavesFaultedAndSleeping := by
  unfold Obligations.WhatLeavesFaultedAndSleeping
  intro s t h
  rcases step_dcu h with hd | hreset | ⟨rest, i, hgo, hi, he⟩
  · exact ⟨fun hs ht => absurd (hd ▸ hs) ht, fun hs ht => absurd (hd ▸ hs) ht⟩
  · exact ⟨fun _ _ => hreset, fun _ _ => .inl hreset⟩
  · refine ⟨fun hs ht => absurd (exec_keeps_faulted (s := s.setHost rest) hs he) ht,
      fun hs ht => .inr ⟨⟨rest, hgo⟩, ?_⟩⟩
    by_cases hn : i = .dcInit
    · exact hn ▸ hi
    · exact absurd (exec_keeps_sleeping (s := s.setHost rest) hn hs he) ht

/-! ### A faulted controller (R183) -/

/-- Nothing between the two states touched the device or the controller's registers, and the host was
given no move. -/
structure Silent (s t : State) : Prop where
  dcu     : t.dcu = s.dcu
  history : t.history = s.history
  lines   : t.lines = s.lines
  host    : t.host ⊆ s.host

theorem Silent.refl (s : State) : Silent s s := ⟨rfl, rfl, rfl, List.Subset.refl _⟩

theorem Silent.trans {s t u : State} (h : Silent s t) (h' : Silent t u) : Silent s u :=
  ⟨h'.dcu.trans h.dcu, h'.history.trans h.history, h'.lines.trans h.lines,
    List.Subset.trans h'.host h.host⟩

/-- Taking the next move off the host's list. -/
theorem silent_setHost {s : State} {m : HostMove} {rest : List HostMove} (hh : s.host = m :: rest) :
    Silent s (s.setHost rest) := ⟨rfl, rfl, rfl, hh ▸ List.subset_cons_self m rest⟩

/-- A faulted controller refuses its own operations, and the framebuffer's never reach it. -/
theorem exec_faulted_silent {i : Instr} {s t : State} (hs : s.dcu.state = .faulted)
    (h : exec i s = .next t) : Silent s t := by
  rcases isFb_or_isDc i with hi | hi
  · have hf := fbFrame_of_exec hi h
    exact ⟨hf.dcu, hf.history, hf.lines, hf.host ▸ List.Subset.refl _⟩
  · rcases dc_cases hi h with ⟨_, -, rfl⟩ | ⟨-, hr, -⟩ | ⟨-, hne, -⟩
    · exact ⟨rfl, rfl, rfl, List.Subset.refl _⟩
    · exact nomatch hs.symm.trans hr.idle
    · exact absurd hs hne

theorem step_faulted_silent {s t : State} (hs : s.dcu.state = .faulted)
    (hh : HostMove.reset ∉ s.host) (h : step s = .next t) : Silent s t := by
  rcases step_cases h with ⟨-, rfl⟩ | ⟨rest, ⟨_, _, hm, rfl⟩ | ⟨_, _, hm, -, rfl⟩ | ⟨_, hm, -, he⟩ |
    ⟨_, hm, -, rfl⟩ | ⟨hm, -⟩⟩
  · exact Silent.refl _
  · exact { silent_setHost hm with }
  · exact { silent_setHost hm with }
  · exact (silent_setHost hm).trans (exec_faulted_silent hs he)
  · exact { silent_setHost hm with }
  · exact absurd (hm ▸ List.mem_cons_self) hh

/-- By induction on the number of steps: a silent step leaves a faulted controller and no reset
pending. -/
theorem run_faulted_silent {n : Nat} {s t : State} (hs : s.dcu.state = .faulted)
    (hh : HostMove.reset ∉ s.host) (h : Host.Core.run Sys2Proof.core n s = .next t) :
    Silent s t := by
  induction n generalizing s with
  | zero =>
    cases h
    exact Silent.refl _
  | succ n ih =>
    obtain ⟨u, hstep, hrun⟩ := run_succ_cases h
    have hu := step_faulted_silent hs hh hstep
    exact hu.trans (ih (hu.dcu ▸ hs) (fun hm => hh (hu.host hm)) hrun)

/-- Settles O55: a run of silent steps is silent. -/
theorem faultedRunsAreSilent : Obligations.FaultedRunsAreSilent := by
  unfold Obligations.FaultedRunsAreSilent
  intro n s t hs hh h
  have ht := run_faulted_silent hs (fun hm => hh _ hm rfl) h
  exact ⟨ht.dcu, ht.history, ht.lines, congrArg busCount ht.history⟩

end Sys2Proof.Machine

/-! Controller operations that end with `Ok`: the events they emitted, and the bytes of a window that they
sent. -/

namespace Sys2Proof.Machine

/-! ### Operations that end with `Ok`: what they emitted (R184) -/

/-- A controller operation that ends with `Ok` has run to its end. -/
theorem dc_ok_cases {i : Instr} {s t : State} (hi : isDc i = true) (h : exec i s = .next t)
    (hok : t.result = .ok) :
    (i ≠ .dcDisplay ∧ i ≠ .dcInit ∧ Runs s i ∧
      t = ((sent s (opFrames s i)).setResult .ok).setDcu (okRegs s.dcu i)) ∨
    (i = .dcDisplay ∧ ∃ k < s.cfg.busyMaxPolls,
      t = (waited (sent s (opFrames s i)) k).setResult .ok) ∨
    (i = .dcInit ∧ ∃ k < s.cfg.busyMaxPolls,
      t = ((sent (waited (sent (pulsed s) (initFrames s)) k) (tableFrames s)).setResult .ok).setDcu
        ⟨.idle, .none, false, false⟩) := by
  rcases dc_cases hi h with ⟨c, hc, rfl⟩ | ⟨hn, hr, hend⟩ | ⟨hn, -, hend⟩
  · obtain rfl : c = .ok := hok
    exact nomatch hc
  · rcases hend with ⟨-, hd, ht⟩ | ⟨-, hd, k, hk, -, ht⟩ | ⟨-, -, -, rfl⟩ | ⟨_, _, -, -, rfl⟩
    · exact .inl ⟨hd, hn, hr, ht⟩
    · exact .inr (.inl ⟨hd, k, hk, ht⟩)
    all_goals exact nomatch hok
  · rcases hend with ⟨-, k, hk, -, ht⟩ | ⟨-, -, rfl⟩ | ⟨_, _, -, -, rfl⟩ | ⟨_, _, -, -, _, -, -, rfl⟩
    · exact .inr (.inr ⟨hn, k, hk, ht⟩)
    all_goals exact nomatch hok

/-- The events of a sequence of transfers that succeed: 4 for a command, 4 more for data (R184). -/
def eventCount (ts : List Xfer) : Nat := (ts.map fun x => if x.data = [] then 4 else 8).sum

theorem four_mul_length_xferFrames (p : Params) (x : Xfer) :
    4 * (xferFrames p x).length = if x.data = [] then 4 else 8 := by
  unfold xferFrames
  split <;> rfl

/-- Each framed write of a sequence emits four events. -/
theorem four_mul_length_seqFrames (p : Params) (ts : List Xfer) :
    4 * (seqFrames p ts).length = eventCount ts := by
  induction ts with
  | nil => rfl
  | cons x xs ih =>
    have hcons : eventCount (x :: xs) = (if x.data = [] then 4 else 8) + eventCount xs :=
      List.sum_cons
    rw [hcons, ← ih, ← four_mul_length_xferFrames p x, ← Nat.mul_add]
    exact congrArg (4 * ·) List.length_append

/-- An operation that does not wait and ends with `Ok` passed its checks and framed all its writes. -/
theorem exec_ok_runs {i : Instr} {s t : State} (h : exec i s = .next t) (hok : t.result = .ok)
    (hi : isDc i = true) (hn : i ≠ .dcInit) (hd : i ≠ .dcDisplay) :
    Runs s i ∧ t.history = s.history ++ (opFrames s i).flatMap (frameEvents s.cfg) := by
  rcases dc_ok_cases hi h hok with ⟨-, -, hr, rfl⟩ | ⟨hi, -⟩ | ⟨hi, -⟩
  · exact ⟨hr, rfl⟩
  · exact absurd hi hd
  · exact absurd hi hn

/-- An operation that does not wait emits the events of its transfers. -/
theorem exec_ok_length {i : Instr} {s t : State} (h : exec i s = .next t) (hok : t.result = .ok)
    (hi : isDc i = true) (hn : i ≠ .dcInit) (hd : i ≠ .dcDisplay) :
    t.history.length = s.history.length + eventCount (transfers s i) := by
  rw [(exec_ok_runs h hok hi hn hd).2, List.length_append, length_flatMap_frameEvents, opFrames,
    four_mul_length_seqFrames]

/-- The samples of a busy-wait, counted by the answers used up and by the `Busy` events. -/
def Sampled (s t : State) (k : Nat) : Prop :=
  t.env.busyDraws = s.env.busyDraws + k ∧ busyCount t.history = busyCount s.history + k

/-- What `dc.display` emits: the refresh sequence, and for `k` samples `k - 1` delays. -/
theorem execDcDisplay_ok_length {s t : State} (h : exec .dcDisplay s = .next t)
    (hok : t.result = .ok) :
    ∃ k, 1 ≤ k ∧ k ≤ s.cfg.busyMaxPolls ∧ Sampled s t k ∧
      t.history.length = s.history.length + (eventCount s.cfg.pv.refreshSeq + (2 * k - 1)) := by
  rcases dc_ok_cases rfl h hok with ⟨hd, -⟩ | ⟨-, k, hk, rfl⟩ | ⟨hi, -⟩
  · exact absurd rfl hd
  · refine ⟨k + 1, Nat.succ_pos k, hk, ⟨rfl, ?_⟩, ?_⟩
    · simp
    · have hfr : 4 * (opFrames s .dcDisplay).length = eventCount s.cfg.pv.refreshSeq :=
        four_mul_length_seqFrames ..
      simp only [State.setResult_history, waited_history, sent_history, sent_cfg, List.length_append,
        length_flatMap_frameEvents, length_waitEvents, hfr]
      omega
  · exact nomatch hi

/-- What `dc.init` emits: the reset pulse, the initialisation sequence, the busy-wait and the default
table. -/
theorem execDcInit_ok_length {s t : State} (h : exec .dcInit s = .next t) (hok : t.result = .ok) :
    ∃ k, 1 ≤ k ∧ k ≤ s.cfg.busyMaxPolls ∧ Sampled s t k ∧
      t.history.length = s.history.length + (4 + eventCount s.cfg.pv.initSeq + (2 * k - 1) +
        if s.cfg.pv.lutDefault = [] then 4 else 8) := by
  rcases dc_ok_cases rfl h hok with ⟨-, hn, -⟩ | ⟨hi, -⟩ | ⟨-, k, hk, rfl⟩
  · exact absurd rfl hn
  · exact nomatch hi
  · refine ⟨k + 1, Nat.succ_pos k, hk, ⟨rfl, ?_⟩, ?_⟩
    · simp
    · have hinit : 4 * (initFrames s).length = eventCount s.cfg.pv.initSeq :=
        four_mul_length_seqFrames ..
      have htable : 4 * (tableFrames s).length = if s.cfg.pv.lutDefault = [] then 4 else 8 :=
        four_mul_length_xferFrames ..
      simp only [State.setDcu_history, State.setResult_history, waited_history, sent_history, sent_cfg,
        waited_cfg, pulsed_cfg, pulsed_history, List.length_append, length_flatMap_frameEvents,
        length_waitEvents, length_pulseEvents, hinit, htable]
      omega

/-! ### The bytes of a window (R179) -/

/-- Valid parameters have a frame of at least one byte (R6). -/
theorem frameBytes_pos {p : Params} (hp : p.Valid) : 0 < frameBytes p := by
  obtain ⟨-, ⟨-, hw, -⟩, ⟨hh, -⟩, -⟩ := hp
  exact Nat.mul_pos (Nat.div_pos hw (by decide)) hh

/-- A window as wide as a multiple of the granularity holds whole bytes (R7). -/
theorem rowBytes_pos {p : Params} {w : Nat} (hp : p.Valid) (hw : 1 ≤ w) (hg : w % p.granX = 0) :
    0 < w / 8 := by
  obtain ⟨-, -, -, ⟨-, hgran⟩, -⟩ := hp
  exact Nat.div_pos (hgran.trans (Nat.le_of_dvd hw (Nat.dvd_of_mod_eq_zero hg))) (by decide)

theorem getElem?_sliceBytes (m : Memory) (a : Nat) {n j : Nat} (hj : j < n) :
    (sliceBytes m a n)[j]? = some (Memory.read m (a + j)) := by simp [sliceBytes, hj]

/-- Rows of one length, one after the other, have that length times their number. -/
theorem length_flatMap_range {α : Type} {f : Nat → List α} {c : Nat} (hf : ∀ r, (f r).length = c)
    (n : Nat) : ((List.range n).flatMap f).length = n * c := by
  simp [List.length_flatMap, hf]

/-- Entry `j` of row `r`. -/
theorem getElem?_flatMap_range {α : Type} {f : Nat → List α} {c n r j : Nat}
    (hf : ∀ r, (f r).length = c) (hr : r < n) (hj : j < c) :
    ((List.range n).flatMap f)[r * c + j]? = (f r)[j]? := by
  have hlen := length_flatMap_range hf
  induction n with
  | zero => exact absurd hr (Nat.not_lt_zero r)
  | succ n ih =>
    rw [List.range_succ, List.flatMap_append, List.flatMap_singleton]
    rcases Nat.lt_succ_iff_lt_or_eq.mp hr with hlt | rfl
    · have hrow : r * c + j < n * c := calc
        r * c + j < (r + 1) * c := by rw [Nat.succ_mul]; exact Nat.add_lt_add_left hj _
        _ ≤ n * c := Nat.mul_le_mul_right c hlt
      rw [List.getElem?_append_left (by rwa [hlen]), ih hlt]
    · rw [List.getElem?_append_right (by rw [hlen]; exact Nat.le_add_right _ _), hlen,
        Nat.add_sub_cancel_left]

theorem length_windowBytes (p : Params) (m : Memory) (addr : Nat) (win : Window) :
    (windowBytes p m addr win).length = win.h * (win.w / 8) :=
  length_flatMap_range (fun _ => sliceBytes_length ..) _

theorem getElem?_windowBytes (p : Params) (m : Memory) (addr : Nat) {win : Window} {r j : Nat}
    (hr : r < win.h) (hj : j < win.w / 8) :
    (windowBytes p m addr win)[r * (win.w / 8) + j]? =
      some (Memory.read m (addr + (win.y + r) * devStride p + win.x / 8 + j)) :=
  (getElem?_flatMap_range (fun _ => sliceBytes_length ..) hr hj).trans (getElem?_sliceBytes _ _ hj)

/-- Row `y`, byte `b` of a frame is a byte of the frame. -/
theorem frameByte_lt {p : Params} {y b : Nat} (hy : y < p.devHeight) (hb : b < devStride p) :
    y * devStride p + b < frameBytes p := calc
  y * devStride p + b < (y + 1) * devStride p := by
    rw [Nat.succ_mul]
    exact Nat.add_lt_add_left hb _
  _ ≤ p.devHeight * devStride p := Nat.mul_le_mul_right _ hy
  _ = frameBytes p := Nat.mul_comm _ _

theorem seqFrames_append (p : Params) (xs ys : List Xfer) :
    seqFrames p (xs ++ ys) = seqFrames p xs ++ seqFrames p ys := List.flatMap_append

/-- The data of the last transfer are the last framed write of a sequence. -/
theorem flatMap_frameEvents_data (p : Params) (xs : List Xfer) (cmd : Byte) {bytes : List Byte}
    (hb : bytes ≠ []) :
    ∃ before, (seqFrames p (xs ++ [⟨cmd, bytes⟩])).flatMap (frameEvents p) =
      before ++ frameEvents p ⟨p.dcCmdLevel.not, bytes⟩ := by
  refine ⟨(seqFrames p xs ++ [Frame.mk p.dcCmdLevel [cmd]]).flatMap (frameEvents p), ?_⟩
  rw [seqFrames_append, seqFrames_singleton, xferFrames, if_neg hb]
  simp only [List.flatMap_append, List.flatMap_cons, List.flatMap_nil, List.append_nil,
    List.append_assoc]

/-- The window of an operation that runs has at least one byte. -/
theorem windowBytes_ne_nil {s : State} {addr len x y w h : Word} (hp : s.cfg.Valid)
    (hr : Runs s (.dcPartial addr len x y w h)) :
    windowBytes s.cfg s.mem addr.toNat ⟨x.toNat, y.toNat, w.toNat, h.toNat⟩ ≠ [] := by
  obtain ⟨-, -, -, hw, hh, -, -, hg, -⟩ := hr
  rw [← List.length_pos_iff, length_windowBytes]
  exact Nat.mul_pos hh (rowBytes_pos hp hw hg)

/-- The last framed write of a `dc.partial` that ends with `Ok`. -/
theorem execDcPartial_ok_history {s t : State} {addr len x y w h : Word} (hp : s.cfg.Valid)
    (he : exec (.dcPartial addr len x y w h) s = .next t) (hok : t.result = .ok) :
    ∃ before, t.history = before ++ frameEvents s.cfg ⟨s.cfg.dcCmdLevel.not,
      windowBytes s.cfg s.mem addr.toNat ⟨x.toNat, y.toNat, w.toNat, h.toNat⟩⟩ := by
  obtain ⟨hr, ht⟩ := exec_ok_runs he hok rfl nofun nofun
  obtain ⟨before, hb⟩ := flatMap_frameEvents_data s.cfg
    (windowSeq s.cfg.pv ⟨x.toNat, y.toNat, w.toNat, h.toNat⟩) s.cfg.pv.writeNewCmd
    (windowBytes_ne_nil hp hr)
  exact ⟨s.history ++ before, by rw [ht, opFrames, transfers, hb, List.append_assoc]⟩

/-- Each byte of the window stands in memory, because the slice holds a whole frame. -/
theorem windowByte_load {s : State} {addr len x y w h : Word} {r j : Nat}
    (hr : Runs s (.dcPartial addr len x y w h)) (hrow : r < h.toNat) (hj : j < w.toNat / 8) :
    s.load (addr.toNat + (y.toNat + r) * devStride s.cfg + x.toNat / 8 + j) =
      some (Memory.read s.mem
        (addr.toNat + (y.toNat + r) * devStride s.cfg + x.toNat / 8 + j)) := by
  obtain ⟨-, hl, hn, -, -, hx, hy, -, -⟩ := hr
  have hcol : x.toNat / 8 + j < devStride s.cfg := by
    unfold devStride
    omega
  have hbyte := frameByte_lt (p := s.cfg) (y := y.toNat + r) (by omega) hcol
  exact State.load_eq_some (by omega)

/-- Settles O52: the data of the last transfer are the window's bytes, each as memory holds it. -/
theorem partialSendsTheWindowBytes : Obligations.PartialSendsTheWindowBytes := by
  unfold Obligations.PartialSendsTheWindowBytes
  intro s t addr len x y w h hp he hok
  obtain ⟨hr, -⟩ := exec_ok_runs he hok rfl nofun nofun
  obtain ⟨before, hb⟩ := execDcPartial_ok_history hp he hok
  exact ⟨before, _, hb, length_windowBytes _ _ _ _, fun r hrow j hj =>
    (getElem?_windowBytes _ _ _ hrow hj).trans (windowByte_load hr hrow hj).symm⟩

/-- Settles O51: an operation that does not wait emits the events of its transfers, whose data is empty
only where a waveform table is. -/
theorem eventCountsOfSuccess : Obligations.EventCountsOfSuccess := by
  unfold Obligations.EventCountsOfSuccess
  intro i s t hp h hok
  refine ⟨?_, ?_, ?_, ?_, ?_, ?_, ?_⟩
  · rintro rfl
    exact execDcInit_ok_length h hok
  · rintro sel rfl
    exact exec_ok_length h hok rfl nofun nofun
  · rintro rfl
    have hfill : List.replicate (frameBytes s.cfg) s.cfg.pv.clearByte ≠ [] :=
      by
      simpa using (frameBytes_pos hp).ne'
    simpa [transfers, eventCount, hfill] using exec_ok_length h hok rfl nofun nofun
  · rintro addr len rfl
    obtain ⟨-, -, hlen⟩ := (exec_ok_runs h hok rfl nofun nofun).1
    have hslice : sliceBytes s.mem addr.toNat len.toNat ≠ [] := by
      rw [← List.length_pos_iff, sliceBytes_length, hlen]
      exact frameBytes_pos hp
    simpa [transfers, eventCount, hslice] using exec_ok_length h hok rfl nofun nofun
  · rintro addr len x y w ht rfl
    have hwin := windowBytes_ne_nil hp (exec_ok_runs h hok rfl nofun nofun).1
    simpa [transfers, eventCount, hwin] using exec_ok_length h hok rfl nofun nofun
  · rintro rfl
    exact execDcDisplay_ok_length h hok
  · rintro rfl
    exact exec_ok_length h hok rfl nofun nofun

end Sys2Proof.Machine

/-! The exceptions: how an operation ends, by the class of its result code, the checks that refuse it in a
wrong state, and the device failures that fault the controller. -/

namespace Sys2Proof.Machine

/-! ### How an operation ends (R200) -/

/-- A framebuffer operation ends with `Ok`, or one of its checks refuses it (R110 to R115). -/
theorem exec_fb_ends {i : Instr} {s t : State} (hi : isFb i = true) (h : exec i s = .next t) :
    t.result = .ok ∨
    ((t.result = .invalidState ∨ t.result = .illegalOperation ∨ t.result = .sizeMismatch) ∧
      t = s.setResult t.result) := by
  rcases fb_cases hi h with hrefused | ⟨_, _, _, _, -, -, -, -, rfl⟩ | ⟨_, _, -, -, -, rfl⟩ |
    ⟨_, _, _, -, -, -, -, rfl⟩ | ⟨_, _, _, _, -, -, -, ⟨-, rfl⟩ | ⟨_, _, -, -, rfl⟩⟩ |
    ⟨_, _, _, -, -, rfl⟩ | ⟨-, -, rfl⟩
  case inl => exact .inr hrefused
  all_goals exact .inl rfl

/-- The device failures and the operations that raise them (R202, R203, R204, R208). -/
def FailsWith (i : Instr) (c : ResultCode) : Prop :=
  (i = .dcInit ∧ (c = .initBusFault ∨ c = .initTimeout)) ∨
  (i = .dcDisplay ∧ c = .timeout) ∨
  (isDc i = true ∧ i ≠ .dcInit ∧ c = .cmdBusFault)

/-- Every operation ends with `Ok`, with a caller error or refusal that changes RESULT alone (R222), or
with a device failure that faults a controller that was not faulted (R221). -/
theorem exec_ends {i : Instr} {s t : State} (h : exec i s = .next t) :
    t.result = .ok ∨
    (isCallerError t.result = true ∧ t = s.setResult t.result) ∨
    (FailsWith i t.result ∧ t.dcu.state = .faulted ∧ s.dcu.state ≠ .faulted) := by
  rcases isFb_or_isDc i with hi | hi
  · rcases exec_fb_ends hi h with hok | ⟨hc, ht⟩
    · exact .inl hok
    · exact .inr (.inl ⟨by rcases hc with hc | hc | hc <;> rw [hc] <;> rfl, ht⟩)
  · rcases dc_cases hi h with ⟨c, hc, rfl⟩ | ⟨hn, hr, hend⟩ | ⟨hinit, hs, hend⟩
    · exact .inr (.inl ⟨hc, rfl⟩)
    · have hs : s.dcu.state ≠ .faulted := fun hf => nomatch hf.symm.trans hr.idle
      rcases hend with ⟨-, -, rfl⟩ | ⟨-, -, _, -, -, rfl⟩ | ⟨-, hd, -, rfl⟩ | ⟨_, _, -, -, rfl⟩
      · exact .inl rfl
      · exact .inl rfl
      · exact .inr (.inr ⟨.inr (.inl ⟨hd, rfl⟩), rfl, hs⟩)
      · exact .inr (.inr ⟨.inr (.inr ⟨hi, hn, rfl⟩), rfl, hs⟩)
    · rcases hend with ⟨-, _, -, -, rfl⟩ | ⟨-, -, rfl⟩ | ⟨_, _, -, -, rfl⟩ |
        ⟨_, _, -, -, _, -, -, rfl⟩
      · exact .inl rfl
      · exact .inr (.inr ⟨.inl ⟨hinit, .inr rfl⟩, rfl, hs⟩)
      · exact .inr (.inr ⟨.inl ⟨hinit, .inl rfl⟩, rfl, hs⟩)
      · exact .inr (.inr ⟨.inl ⟨hinit, .inl rfl⟩, rfl, hs⟩)

/-- The codes that a failing operation ends with are those of class `device failure`. -/
theorem FailsWith.isDeviceFailure {i : Instr} {c : ResultCode} (h : FailsWith i c) :
    isDeviceFailure c = true := by
  rcases h with ⟨-, rfl | rfl⟩ | ⟨-, rfl⟩ | ⟨-, -, rfl⟩ <;> rfl

theorem isCallerError_iff (c : ResultCode) :
    isCallerError c = true ↔ c = .sizeMismatch ∨ c = .invalidWindow ∨ c = .invalidState ∨
      c = .illegalOperation ∨ c = .deviceFaulted := by cases c <;> simp [isCallerError]

/-- The classes of R200 are disjoint. -/
theorem isDeviceFailure_of_callerError {c : ResultCode} (h : isCallerError c = true) :
    isDeviceFailure c = false := by
  rcases (isCallerError_iff c).mp h with rfl | rfl | rfl | rfl | rfl <;> rfl

/-- An operation that ends with a device failure is one that raises it, and faults the controller. -/
theorem exec_deviceFailure {i : Instr} {s t : State} (h : exec i s = .next t)
    (hc : isDeviceFailure t.result = true) :
    FailsWith i t.result ∧ t.dcu.state = .faulted ∧ s.dcu.state ≠ .faulted := by
  rcases exec_ends h with hok | ⟨hcaller, -⟩ | hfail
  · exact nomatch hok ▸ hc
  · exact nomatch hc.symm.trans (isDeviceFailure_of_callerError hcaller)
  · exact hfail

/-- Settles O42: of the three ways to end, the codes named are those of the second. -/
theorem callerErrorsChangeOnlyResult : Obligations.CallerErrorsChangeOnlyResult := by
  unfold Obligations.CallerErrorsChangeOnlyResult
  intro i s t h hc
  have hc := (isCallerError_iff t.result).mpr hc
  rcases exec_ends h with hok | ⟨-, ht⟩ | ⟨hfail, -⟩
  · exact nomatch hok ▸ hc
  · exact ht
  · exact nomatch hfail.isDeviceFailure.symm.trans (isDeviceFailure_of_callerError hc)

theorem exec_ne_noResult {i : Instr} {s t : State} (h : exec i s = .next t) :
    t.result ≠ .noResult := by
  intro hn
  rcases exec_ends h with hok | ⟨hc, -⟩ | ⟨hfail, -⟩
  · exact nomatch hok.symm.trans hn
  · exact nomatch hn ▸ hc
  · exact nomatch hn ▸ hfail.isDeviceFailure

/-- `InitBusFault` and `InitTimeout` are raised by `dc.init` alone. -/
theorem dcInit_of_failure {i : Instr} {s t : State} (h : exec i s = .next t)
    (hc : t.result = .initBusFault ∨ t.result = .initTimeout) : i = .dcInit := by
  obtain ⟨⟨hi, -⟩ | ⟨-, hr⟩ | ⟨-, -, hr⟩, -⟩ :=
    exec_deviceFailure h (by rcases hc with hc | hc <;> rw [hc] <;> rfl)
  · exact hi
  all_goals simp [hr] at hc

/-- `Timeout` is raised by `dc.display` alone. -/
theorem dcDisplay_of_timeout {i : Instr} {s t : State} (h : exec i s = .next t)
    (hc : t.result = .timeout) : i = .dcDisplay := by
  obtain ⟨⟨-, hr⟩ | ⟨hi, -⟩ | ⟨-, -, hr⟩, -⟩ := exec_deviceFailure h (by rw [hc]; rfl)
  · simp [hc] at hr
  · exact hi
  · exact nomatch hc.symm.trans hr

/-- `CmdBusFault` is raised by the six controller operations other than `dc.init`. -/
theorem isDc_of_cmdBusFault {i : Instr} {s t : State} (h : exec i s = .next t)
    (hc : t.result = .cmdBusFault) : isDc i = true ∧ i ≠ .dcInit := by
  obtain ⟨⟨-, hr⟩ | ⟨-, hr⟩ | ⟨hi, hn, -⟩, -⟩ := exec_deviceFailure h (by rw [hc]; rfl)
  · simp [hc] at hr
  · exact nomatch hc.symm.trans hr
  · exact ⟨hi, hn⟩

/-- Settles O43: each code with the operations that raise it. -/
theorem deviceFailuresFaultTheController : Obligations.DeviceFailuresFaultTheController := by
  unfold Obligations.DeviceFailuresFaultTheController
  exact fun i s t h => ⟨fun hc => (exec_deviceFailure h hc).2, dcInit_of_failure h,
    dcDisplay_of_timeout h, isDc_of_cmdBusFault h, exec_ne_noResult h⟩

/-! ### The state check (R118, R177) -/

/-- Every controller operation begins with its state check, and only `dc.init` with that of `dc.init`. -/
theorem exec_dc_guarded {i : Instr} (hi : isDc i = true) (s : State) :
    ∃ op k, (op = .init → i = .dcInit) ∧ exec i s = guarded (dcPrecheck op s.dcu) s k := by
  cases i with
  | dcInit => exact ⟨.init, _, fun _ => rfl, rfl⟩
  | dcLut _ => exact ⟨.lut, _, nofun, rfl⟩
  | dcClrf => exact ⟨.clrf, _, nofun, rfl⟩
  | dcUpdate _ _ => exact ⟨.update, _, nofun, rfl⟩
  | dcPartial _ _ _ _ _ _ => exact ⟨.partialUpdate, _, nofun, rfl⟩
  | dcDisplay => exact ⟨.display, _, nofun, rfl⟩
  | dcSleep => exact ⟨.sleep, _, nofun, rfl⟩
  | _ => exact absurd hi Bool.false_ne_true

/-- Every framebuffer operation but `fb.new` begins with its state check. -/
theorem exec_fb_guarded {i : Instr} (hi : isFb i = true) (hnew : ∀ w ht b l, i ≠ .fbNew w ht b l)
    (s : State) : ∃ k, exec i s = guarded (fbPrecheck s.fb) s k := by
  cases i with
  | fbNew w ht b l => exact absurd rfl (hnew w ht b l)
  | fbRot _ | fbClear _ | fbPix _ _ _ | fbGet _ _ | fbBytes => exact ⟨_, rfl⟩
  | _ => exact absurd hi Bool.false_ne_true

theorem dcPrecheck_wrongState {op : DcOp} {d : DcRegs} (hop : op ≠ .init) (hf : d.state ≠ .faulted)
    (hs : d.state ≠ .idle) : dcPrecheck op d = some .invalidState := by
  simp [dcPrecheck, hop, hf, hs]

theorem dcPrecheck_noFrame {d : DcRegs} (hs : d.state = .idle) (hl : d.frameLoaded = false) :
    dcPrecheck .display d = some .invalidState := by simp [dcPrecheck, hs, hl]

theorem exec_dc_faulted {i : Instr} {s : State} (hi : isDc i = true) (hs : s.dcu.state = .faulted) :
    exec i s = .next (s.setResult .deviceFaulted) := by
  obtain ⟨op, k, -, he⟩ := exec_dc_guarded hi s
  rw [he, dcPrecheck_faulted hs]
  rfl

theorem exec_dc_wrongState {i : Instr} {s : State} (hi : isDc i = true) (hn : i ≠ .dcInit)
    (hf : s.dcu.state ≠ .faulted) (hs : s.dcu.state ≠ .idle) :
    exec i s = .next (s.setResult .invalidState) := by
  obtain ⟨op, k, hop, he⟩ := exec_dc_guarded hi s
  rw [he, dcPrecheck_wrongState (mt hop hn) hf hs]
  rfl

theorem execDcDisplay_noFrame {s : State} (hs : s.dcu.state = .idle)
    (hl : s.dcu.frameLoaded = false) : exec .dcDisplay s = .next (s.setResult .invalidState) := by
  show guarded (dcPrecheck .display s.dcu) s _ = _
  rw [dcPrecheck_noFrame hs hl]
  rfl

theorem exec_fb_invalid {i : Instr} {s : State} (hi : isFb i = true)
    (hnew : ∀ w ht b l, i ≠ .fbNew w ht b l) (hv : s.fb.valid = false) :
    exec i s = .next (s.setResult .invalidState) := by
  obtain ⟨k, he⟩ := exec_fb_guarded hi hnew s
  exact he.trans (fbGuarded_invalid hv k)

/-- The framebuffer unit does not look at the controller's state (R118). -/
theorem exec_fb_ne_deviceFaulted {i : Instr} {s t : State} (hi : isFb i = true)
    (h : exec i s = .next t) : t.result ≠ .deviceFaulted := by
  intro hc
  rcases exec_fb_ends hi h with hr | ⟨hr | hr | hr, -⟩
  all_goals exact nomatch hr.symm.trans hc

/-- Settles O39: the state check refuses before any operand is looked at. -/
theorem faultedControllerRefusesAll : Obligations.FaultedControllerRefusesAll := by
  unfold Obligations.FaultedControllerRefusesAll
  exact fun i s => ⟨exec_dc_faulted, fun hi t => exec_fb_ne_deviceFaulted hi⟩

/-- Settles O40: the state checks of the two units refuse before any operand is looked at. -/
theorem wrongStateIsRefused : Obligations.WrongStateIsRefused := by
  unfold Obligations.WrongStateIsRefused
  exact fun i s => ⟨exec_dc_wrongState, execDcDisplay_noFrame, exec_fb_invalid⟩

/-! ### Device failures (R202, R203, R204, R208) -/

/-- The first failing write lies in one of two sequences sent one after the other, not in both. -/
theorem failingFrame_split {v : Env} {j k : Nat} {fs : List Frame} {f : Frame} (hj : BusFailsAt v j)
    (hf : fs[j]? = some f) (hk : BusFailsAt v (fs.length + k)) : False := by
  have hlt : j < fs.length := (List.getElem?_eq_some_iff.mp hf).1
  have := busFailsAt_unique hj hk
  omega

/-- Settles O37: a failing write rules out every end but the one at the first failing write. -/
theorem commandBusFaults : Obligations.CommandBusFaults := by
  unfold Obligations.CommandBusFaults
  intro i s k f hr hf hk
  rcases runs_cases hr with ⟨hok, -⟩ | ⟨hok, -⟩ | ⟨hok, -⟩ | ⟨j, g, hg, hj, he⟩
  case inr.inr.inr =>
    obtain rfl := busFailsAt_unique hg hf
    obtain rfl := Option.some.inj (hj.symm.trans hk)
    exact he
  all_goals exact (busFailsAt_absurd hok hf hk).elim

/-- Settles O38: a panel that is never ready leaves `dc.display` no other end. -/
theorem dcDisplayTimesOut : Obligations.DcDisplayTimesOut := by
  unfold Obligations.DcDisplayTimesOut
  refine ⟨fun s hr hok hn => ?_, fun i s t => dcDisplay_of_timeout⟩
  rcases runs_cases hr with ⟨-, hd, -⟩ | ⟨-, -, k, hk, hready, -⟩ | ⟨-, -, -, he⟩ | ⟨k, f, hf, hk, -⟩
  · exact absurd rfl hd
  · exact absurd hn (readyAt_not_never hready hk)
  · exact he
  · exact (busFailsAt_absurd hok hf hk).elim

/-- Settles O35: a panel that is never ready leaves `dc.init` no other end. -/
theorem dcInitTimesOut : Obligations.DcInitTimesOut := by
  unfold Obligations.DcInitTimesOut
  refine ⟨fun s hs hok hn => ?_, fun i s t h hc => dcInit_of_failure h (.inr hc)⟩
  rcases init_cases hs with ⟨-, k, hk, hready, -⟩ | ⟨-, -, he⟩ | ⟨k, f, hf, hk, -⟩ |
    ⟨_, _, -, -, j, hj, hready, -⟩
  · exact absurd hn (readyAt_not_never hready hk)
  · exact he
  · exact (busFailsAt_absurd hok hf hk).elim
  · exact absurd hn (readyAt_not_never hready hj)

/-- `dc.init` whose first failing write lies in the initialisation sequence. -/
theorem execDcInit_seqFails {s : State} {k : Nat} {f : Frame} (hs : s.dcu.state ≠ .faulted)
    (hf : BusFailsAt s.env k) (hk : (initFrames s)[k]? = some f) :
    exec .dcInit s = .next (((sentUpTo (pulsed s) (initFrames s) k f).setResult .initBusFault).setDcu
      ⟨.faulted, .none, false, false⟩) := by
  have hlt : k < (initFrames s).length := (List.getElem?_eq_some_iff.mp hk).1
  rcases init_cases hs with ⟨hok, -⟩ | ⟨hok, -⟩ | ⟨n, g, hg, hn, he⟩ | ⟨n, g, hg, -⟩
  · exact absurd hf (busFailsAt_not_ok hok (Nat.lt_add_right _ hlt))
  · exact absurd hf (busFailsAt_not_ok hok hlt)
  · obtain rfl := busFailsAt_unique hg hf
    obtain rfl := Option.some.inj (hn.symm.trans hk)
    exact he
  · exact (failingFrame_split hf hk hg).elim

/-- `dc.init` whose first failing write lies in the default table, after a busy-wait that ended. -/
theorem execDcInit_tableFails {s : State} {k j : Nat} {f : Frame} (hs : s.dcu.state ≠ .faulted)
    (hf : BusFailsAt s.env ((initFrames s).length + k)) (hk : (tableFrames s)[k]? = some f)
    (hj : j < s.cfg.busyMaxPolls) (hready : ReadyAt s.cfg s.env j) :
    exec .dcInit s = .next (((sentUpTo (waited (sent (pulsed s) (initFrames s)) j) (tableFrames s) k
      f).setResult .initBusFault).setDcu ⟨.faulted, .none, false, false⟩) := by
  have hlt : k < (tableFrames s).length := (List.getElem?_eq_some_iff.mp hk).1
  rcases init_cases hs with ⟨hok, -⟩ | ⟨-, hn, -⟩ | ⟨n, g, hg, hn, -⟩ | ⟨n, g, hg, hn, m, -, hm, he⟩
  · exact absurd hf (busFailsAt_not_ok hok (Nat.add_lt_add_left hlt _))
  · exact absurd hn (readyAt_not_never hready hj)
  · exact (failingFrame_split hg hn hf).elim
  · obtain rfl := Nat.add_left_cancel (busFailsAt_unique hg hf)
    obtain rfl := Option.some.inj (hn.symm.trans hk)
    obtain rfl := readyAt_unique hm hready
    exact he

/-- Settles O36: the two places of a failing write, and the operation that the code comes from. -/
theorem dcInitBusFaults : Obligations.DcInitBusFaults := by
  unfold Obligations.DcInitBusFaults
  exact ⟨fun s k j f hs => ⟨execDcInit_seqFails hs, execDcInit_tableFails hs⟩,
    fun i s t h hc => dcInit_of_failure h (.inl hc)⟩

end Sys2Proof.Machine

/-! The step of a machine whose host has no move pending. -/

namespace Sys2Proof.Machine

/-- Settles O10: with no move to take, the step is the idle one, the model's form of waiting for a GO
(R233, R25; DESIGN CHOICE, log entry 7). -/
theorem nothingHappensWithoutAMove : Obligations.NothingHappensWithoutAMove := by
  unfold Obligations.NothingHappensWithoutAMove
  exact fun s hidle => step_idle hidle

end Sys2Proof.Machine
